-- ==== Sys2Proof/Word.lean ====
section
/-! DEFINITION. The words of the RC display core (00_scope.md R9, R10; 30_encoding.md R70) and the
four-entry container its digit-indexed registers are held in (10_state.md R20). -/

namespace Sys2Proof

/-- A pattern `p[6:0]`: bit `k` is segment `k`, with a = 0, ..., g = 6 (R10). -/
abbrev Pattern := BitVec 7

/-- An 8-bit character code (R6 CHAR_W, R100). -/
abbrev CharCode := BitVec 8

/-- A line vector `l[7:0]`: bits 6..0 a pattern, bit 7 the decimal point (R10). -/
abbrev LineVector := BitVec 8

/-- A 40-bit command word (R70). -/
abbrev CmdWord := BitVec 40

/-- The four packed character codes of a SETSTR, `DATA[31:0]` (R53, R70). -/
abbrev CharWord := BitVec 32

/-- A digit position 0..3, 0 the leftmost (R20). -/
abbrev DigitPosition := Fin 4

/-- A segment line index 0..7, 7 the decimal point (R10, R50). -/
abbrev SegmentLine := Fin 8

/-- What can be put on one of the two ports that opcode_table.json has formats for: a command word
on the command port (format CMD) or a character code on the ENCODE port (format ENC_PORT). -/
inductive PortWord where
  | cmd (w : CmdWord)
  | encChar (c : CharCode)
  deriving DecidableEq, Repr

/-- One value for each of the four digit positions. -/
structure PerDigit (α : Type) where
  d0 : α
  d1 : α
  d2 : α
  d3 : α
  deriving DecidableEq, Repr

end Sys2Proof
end

