-- ==== Sys2Proof/Machine/Operands.lean ====
section
/-! DEFINITION. Operand assembly (30_encoding.md R70, R71; 20_memory.md R53): the fields of a command word and the
four character codes of a SETSTR, read and put together. -/

namespace Sys2Proof

/-- `OP = cmd[39:36]` (R70). -/
def opcodeOf (w : CmdWord) : BitVec 4 := w.extractLsb' 36 4

/-- `POS = cmd[35:34]`, an unsigned digit position (R70, R71). -/
def posOf (w : CmdWord) : DigitPosition := (w.extractLsb' 34 2).toFin

/-- `V = cmd[33]` (R70). -/
def valueOf (w : CmdWord) : Bool := w.getLsbD 33

/-- `DATA = cmd[31:0]` (R70). -/
def dataOf (w : CmdWord) : CharWord := w.extractLsb' 0 32

/-- The SETDIG pattern, `DATA[6:0]` (R71). -/
def patternOf (w : CmdWord) : Pattern := (dataOf w).extractLsb' 0 7

/-- The code for digit position `j`: `DATA[31-8j : 24-8j]` (R71). -/
def charAt (data : CharWord) (j : DigitPosition) : CharCode := data.extractLsb' (24 - 8 * j.val) 8

/-- Four codes in one DATA field, position 0 in `DATA[31:24]` (R53). -/
def packChars (c0 c1 c2 c3 : CharCode) : CharWord := c0 ++ c1 ++ c2 ++ c3

/-- A command word from its fields, with RSV 0 (R70). -/
def cmdWord (op : BitVec 4) (pos : DigitPosition) (v : Bool) (data : CharWord) : CmdWord :=
  op ++ BitVec.ofNat 2 pos.val ++ BitVec.ofBool v ++ 0#1 ++ data

end Sys2Proof
end

