-- ==== Sys2Proof/Syntax.lean ====
section
/-! DEFINITION. The instructions: one constructor for each row of spec/opcode_table.json. -/

namespace Sys2Proof

/-- The eight commands of 30_encoding.md R75, the reserved opcodes of R77, and the lookup of the
ENCODE port (41_encoder_rom.md R105). Only the fields a command uses are operands (R76). -/
inductive Instr where
  /-- NOP (42_buffer_commands.md R120). -/
  | nop
  /-- CLEAR (R121). -/
  | clear
  /-- SETDIG pos, pat (R122). -/
  | setdig (pos : DigitPosition) (pat : Pattern)
  /-- SETPT pos, v (R123). -/
  | setpt (pos : DigitPosition) (v : Bool)
  /-- SETSTR "c0c1c2c3" (R124); `c0` is for digit position 0. -/
  | setstr (c0 c1 c2 c3 : CharCode)
  /-- START (43_refresh_engine.md R149). -/
  | start
  /-- STOP (R150). -/
  | stop
  /-- TEARDOWN (R151). -/
  | teardown
  /-- A reserved opcode, 0x8 to 0xF (30_encoding.md R77, 60_exceptions.md R181). -/
  | reserved (op : BitVec 4)
  /-- A lookup on the ENCODE port (41_encoder_rom.md R105). -/
  | encode (c : CharCode)
  deriving DecidableEq, Repr

/-- The row of spec/opcode_table.json an instruction belongs to, by its mnemonic. -/
def Instr.mnemonic : Instr → String
  | .nop => "NOP"
  | .clear => "CLEAR"
  | .setdig _ _ => "SETDIG"
  | .setpt _ _ => "SETPT"
  | .setstr _ _ _ _ => "SETSTR"
  | .start => "START"
  | .stop => "STOP"
  | .teardown => "TEARDOWN"
  | .reserved _ => "RESERVED"
  | .encode _ => "ENCODE"

end Sys2Proof
end

