-- ==== Sys2Proof/WellFormed.lean ====
section
/-! DEFINITION. Which terms of `Instr` are instructions. The operand types rule out every position,
pattern and code out of range (20_memory.md R54); one check is left. -/

namespace Sys2Proof

/-- A reserved opcode is one of 0x8 to 0xF: bit 3 of OP is set (30_encoding.md R75, R77). -/
def reservedOpcode (op : BitVec 4) : Bool := op.getLsbD 3

/-- The instruction is one of the table's. -/
def Instr.wellFormed : Instr → Bool
  | .reserved op => reservedOpcode op
  | .nop => true
  | .clear => true
  | .setdig _ _ => true
  | .setpt _ _ => true
  | .setstr _ _ _ _ => true
  | .start => true
  | .stop => true
  | .teardown => true
  | .encode _ => true

end Sys2Proof
end

