-- ==== Sys2Proof/Decode.lean ====
section
/-! DEFINITION. Decoding and encoding (30_encoding.md R70 to R78, opcode_table.json). Every 40-bit word is
a command (a reserved one at least) and every 8-bit code a lookup, so decoding a port's word is total;
bits that fit no port are rejected by name. -/

namespace Sys2Proof

/-- The command a word presented on the command port stands for: OP alone selects it (R75). -/
def decodeCmd (w : CmdWord) : Instr :=
  match opcodeOf w with
  | 0x0#4 => .nop
  | 0x1#4 => .clear
  | 0x2#4 => .setdig (posOf w) (patternOf w)
  | 0x3#4 => .setpt (posOf w) (valueOf w)
  | 0x4#4 =>
    .setstr (charAt (dataOf w) 0) (charAt (dataOf w) 1) (charAt (dataOf w) 2) (charAt (dataOf w) 3)
  | 0x5#4 => .start
  | 0x6#4 => .stop
  | 0x7#4 => .teardown
  | op => .reserved op

/-- The instruction on a port: a command, or a lookup on the ENCODE port, whose 8 bits are all the
character code (R105). -/
def decode : PortWord → Instr
  | .cmd w => decodeCmd w
  | .encChar c => .encode c

/-- Why bits are no instruction. -/
inductive DecodeError where
  /-- No port of the block is that wide. -/
  | noPortOfWidth (nbits : Nat)
  /-- The number has bits set above the width given. -/
  | bitsAboveWidth
  deriving DecidableEq, Repr

/-- The word that `nbits` bits of value `w` are on the port of that width: up to 8 bits on the
ENCODE port, up to 40 on the command port, bits not given being 0 (log 15). -/
def portWordOf (nbits w : Nat) : Except DecodeError PortWord :=
  if 2 ^ nbits ≤ w then .error .bitsAboveWidth
  else if 0 < nbits ∧ nbits ≤ 8 then .ok (.encChar (BitVec.ofNat 8 w))
  else if 8 < nbits ∧ nbits ≤ 40 then .ok (.cmd (BitVec.ofNat 40 w))
  else .error (.noPortOfWidth nbits)

/-- The instruction that `nbits` bits of value `w` are, or the name of what is wrong with them. -/
def decodeBits (nbits w : Nat) : Except DecodeError Instr :=
  match portWordOf nbits w with
  | .ok p => .ok (decode p)
  | .error e => .error e

/-- The host's view of `decodeBits`: bit 0 of `w` is bit 0 of the port, as opcode_table.json numbers it. -/
def decodeTableWord (nbits w : Nat) : Option Instr :=
  match decodeBits nbits w with
  | .ok i => some i
  | .error _ => none

/-- The word of an instruction, every field it does not use 0 (R75, R76, R79). -/
def encode : Instr → PortWord
  | .nop => .cmd (cmdWord 0x0#4 0 false 0#32)
  | .clear => .cmd (cmdWord 0x1#4 0 false 0#32)
  | .setdig pos pat => .cmd (cmdWord 0x2#4 pos false (pat.setWidth 32))
  | .setpt pos v => .cmd (cmdWord 0x3#4 pos v 0#32)
  | .setstr c0 c1 c2 c3 => .cmd (cmdWord 0x4#4 0 false (packChars c0 c1 c2 c3))
  | .start => .cmd (cmdWord 0x5#4 0 false 0#32)
  | .stop => .cmd (cmdWord 0x6#4 0 false 0#32)
  | .teardown => .cmd (cmdWord 0x7#4 0 false 0#32)
  | .reserved op => .cmd (cmdWord op 0 false 0#32)
  | .encode c => .encChar c

/-- A row of format CMD of opcode_table.json: a word selects it when `(cmd & mask) = value`. -/
structure TableRow where
  mnemonic : String
  mask : CmdWord
  value : CmdWord
  deriving DecidableEq, Repr

/-- A word selects a row (30_encoding.md section 4). -/
def TableRow.selects (r : TableRow) (w : CmdWord) : Bool := (w &&& r.mask) == r.value

/-- The rows of format CMD of opcode_table.json. -/
def cmdTable : List TableRow :=
  [ ⟨"NOP", 0xF000000000, 0x0000000000⟩,
    ⟨"CLEAR", 0xF000000000, 0x1000000000⟩,
    ⟨"SETDIG", 0xF000000000, 0x2000000000⟩,
    ⟨"SETPT", 0xF000000000, 0x3000000000⟩,
    ⟨"SETSTR", 0xF000000000, 0x4000000000⟩,
    ⟨"START", 0xF000000000, 0x5000000000⟩,
    ⟨"STOP", 0xF000000000, 0x6000000000⟩,
    ⟨"TEARDOWN", 0xF000000000, 0x7000000000⟩,
    ⟨"RESERVED", 0x8000000000, 0x8000000000⟩ ]

end Sys2Proof
end

