-- ==== Sys2Proof/Config.lean ====
section
/-! DEFINITION. The parameters of the block (00_scope.md R6): those the spec leaves OPEN are fields, so
a state carries a parameter set and a statement holds for every one (log 1). A parameter set with
`DWELL_CYCLES = 0` or above `2^DW` has no value of this type (R7, log 6). -/

namespace Sys2Proof

/-- The 15 entries of GLYPH that a configuration may set (41_encoder_rom.md R103, R109); the entries
of ' ', '1' and '8' are fixed by the spec and are no fields. -/
structure Glyphs where
  dash : Pattern
  n0 : Pattern
  n2 : Pattern
  n3 : Pattern
  n4 : Pattern
  n5 : Pattern
  n6 : Pattern
  n7 : Pattern
  n9 : Pattern
  a : Pattern
  b : Pattern
  c : Pattern
  d : Pattern
  e : Pattern
  f : Pattern
  deriving DecidableEq, Repr, Inhabited

/-- A parameter set of the block (R6). `reload` is `DWELL_CYCLES - 1`, the value the dwell counter is
loaded with (R27): its `DW` bits hold it exactly when `1 <= DWELL_CYCLES <= 2^DW`. -/
structure Config where
  /-- DW, the width of the dwell counter: 20 by default (R6). -/
  dw : Nat := 20
  /-- DWELL_CYCLES - 1. -/
  reload : BitVec dw
  /-- DIGIT_ON_LEVEL: the logic level that means "on" for a digit-select line (R6, R13). -/
  digitOnLevel : Bool
  /-- SEG_ON_LEVEL: the logic level that means "on" for a segment line (R6, R13). -/
  segOnLevel : Bool
  /-- F_CLK in Hz, used only to convert between times and cycles (R6). -/
  fClk : Nat
  /-- GLYPH (R103). -/
  glyph : Glyphs
  deriving DecidableEq, Repr, Inhabited

/-- DWELL_CYCLES (R6). -/
def Config.dwellCycles (c : Config) : Nat := c.reload.toNat + 1

/-- P, the clock cycles one digit takes (43_refresh_engine.md R146). -/
def Config.digitCycles (c : Config) : Nat := c.dwellCycles + 3

/-- The clock cycles one scan pass takes (R146). -/
def Config.passCycles (c : Config) : Nat := 4 * c.digitCycles

/-- Seconds a scan pass lasts, `4 x (DWELL_CYCLES + 3) / F_CLK` (70_reset_and_hazards.md R217). -/
def Config.passSeconds (c : Config) : Rat := (c.passCycles : Rat) / (c.fClk : Rat)

/-- The fraction of the time the segments of one digit are lit (R217). -/
def Config.litFraction (c : Config) : Rat := (c.dwellCycles : Rat) / (c.passCycles : Rat)

/-- The timing target of R8, a recommendation that no rule depends on: a pass under 0.016 s. -/
def Config.meetsPassTarget (c : Config) : Bool := decide (0 < c.fClk ∧ c.passSeconds < 16 / 1000)

/-- The parameter set of the block as it is deployed. The spec fixes none (D6, D9, D17, D30), so it has
no body: nothing in Lean can say what it is (log 1). -/
opaque Config.deployed : Config

end Sys2Proof
end

