-- ==== Sys2Proof/Machine/Encoder.lean ====
section
/-! DEFINITION. The segment encoder ROM (41_encoder_rom.md): a total function of the code and the GLYPH
parameter, with no state, and the building of a parameter set (00_scope.md R6, R7). -/

namespace Sys2Proof.Machine

/-- Case normalisation (R102): the codes 0x61..0x7A go to 0x41..0x5A, every other is kept. -/
def normalizeCase (c : CharCode) : CharCode :=
  if 0x61#8 ≤ c ∧ c ≤ 0x7A#8 then c - 0x20#8 else c

/-- The alphabet's patterns (R103), and the blank for every other code (R104). -/
def glyphOf (g : Glyphs) (u : CharCode) : Pattern :=
  match u with
  | 0x20#8 => 0x00#7
  | 0x2D#8 => g.dash
  | 0x30#8 => g.n0
  | 0x31#8 => 0x06#7
  | 0x32#8 => g.n2
  | 0x33#8 => g.n3
  | 0x34#8 => g.n4
  | 0x35#8 => g.n5
  | 0x36#8 => g.n6
  | 0x37#8 => g.n7
  | 0x38#8 => 0x7F#7
  | 0x39#8 => g.n9
  | 0x41#8 => g.a
  | 0x42#8 => g.b
  | 0x43#8 => g.c
  | 0x44#8 => g.d
  | 0x45#8 => g.e
  | 0x46#8 => g.f
  | _ => 0x00#7

/-- `ENC(c)` (R101). -/
def enc (g : Glyphs) (c : CharCode) : Pattern := glyphOf g (normalizeCase c)

/-- The default GLYPH of R103. It comes from general knowledge, not from the source (G1): a statement
that needs an entry of it says so as a premise (log 16). -/
def standardGlyphs : Glyphs where
  dash := 0x40#7
  n0 := 0x3F#7
  n2 := 0x5B#7
  n3 := 0x4F#7
  n4 := 0x66#7
  n5 := 0x6D#7
  n6 := 0x7D#7
  n7 := 0x07#7
  n9 := 0x6F#7
  a := 0x77#7
  b := 0x7C#7
  c := 0x39#7
  d := 0x5E#7
  e := 0x79#7
  f := 0x71#7

/-- Build a parameter set from DW and DWELL_CYCLES, refusing what R6 and R7 call no legal instance. -/
def buildConfig (dw dwellCycles : Nat) (digitOnLevel segOnLevel : Bool) (fClk : Nat)
    (glyph : Glyphs) : Option Config :=
  if 1 ≤ dwellCycles ∧ dwellCycles ≤ 2 ^ dw then
    some
      { dw := dw, reload := BitVec.ofNat dw (dwellCycles - 1), digitOnLevel := digitOnLevel,
        segOnLevel := segOnLevel, fClk := fClk, glyph := glyph }
  else none

end Sys2Proof.Machine
end

