-- ==== Sys2Proof/Machine/State.lean ====
section
/-! DEFINITION. The state of the block (10_state.md), the inputs it samples (R36), the reasons a step can
stop, and the state after reset (R37). -/

namespace Sys2Proof.Machine

/-- PHASE (R25): the five named states of the dwell timing state machine, and the three encodings no
run from reset reaches, `unreachable k` being the 3-bit value `5 + k`. -/
inductive Phase where
  | idle
  | digOn
  | segOn
  | segOff
  | digOff
  | unreachable (k : Fin 3)
  deriving DecidableEq, Repr

/-- The input ports in one cycle (R36). -/
structure Inputs where
  rst : Bool
  cmdValid : Bool
  cmd : CmdWord
  encChar : CharCode
  rdPos : DigitPosition
  deriving DecidableEq, Repr

/-- What the host presents in a cycle its schedule says nothing of: no reset and no command
(95_test_vectors.md section 3), and code and position 0 on the combinational ports (log 2). -/
def Inputs.idle : Inputs :=
  { rst := false, cmdValid := false, cmd := 0#40, encChar := 0#8, rdPos := 0 }

/-- The state during one cycle. The first group is the spec's registers, in the order of R37; the
second is the model's own. -/
structure State where
  /-- SEG: the row of each digit position (R20). -/
  seg : PerDigit Pattern
  /-- PT: the point flag of each digit position (R20). -/
  pt : PerDigit Bool
  /-- PHASE (R25). -/
  phase : Phase
  /-- DIG (R26). -/
  dig : DigitPosition
  /-- DWELL_CNT (R27), the number its DW bits hold (log 5). -/
  dwellCnt : Nat
  /-- LATCH (R28). -/
  latch : LineVector
  /-- RUN (R29). -/
  run : Bool
  /-- SCAN_COUNT (R30). -/
  scanCount : BitVec 16
  /-- BUSY (R31). -/
  busy : Bool
  /-- WR_IDX (R31). -/
  wrIdx : DigitPosition
  /-- WR_CHARS (R31). -/
  wrChars : CharWord
  /-- ERR_ILLEGAL (R32). -/
  errIllegal : Bool
  /-- ERR_FSM (R32). -/
  errFsm : Bool
  /-- The parameters of the block (00_scope.md R6), which no step changes (log 1). -/
  cfg : Config
  /-- What the host presents in this cycle and the following ones; idle inputs once it is used up (log 2). -/
  host : List Inputs
  /-- What the output port enc_pat showed in the cycle just ended (41_encoder_rom.md R105, log 3). -/
  encPat : Pattern
  /-- A cycle with rst = 1 has gone by since power-up (70_reset_and_hazards.md R202, log 4). -/
  resetSeen : Bool
  deriving DecidableEq, Repr

/-- Why the machine stops with a fault. The block itself has none (60_exceptions.md R180); both are
R202's, for a run that the spec says is outside it. -/
inductive Fault where
  /-- A command presented before the first reset. Raised by the step (`cycle`). Safe: the spec gives
  such a run no value, and R202 asks for a fault. -/
  | commandBeforeReset
  /-- An output read before the first reset. Raised by the host's observation `sampleOutputs`, never by
  a step. Safe, for the same reason. -/
  | readBeforeReset
  deriving DecidableEq, Repr

/-- Why an instruction is refused. -/
inductive Refusal where
  /-- The instruction has no meaning in this model. Raised by no arm of `exec`: every row of the table
  has its meaning. Safe. -/
  | notModelled (mnemonic : String)
  deriving DecidableEq, Repr

/-- The outcome of a step or of an instruction. -/
abbrev Outcome := Host.Outcome State Fault Refusal

/-- The state right after a cycle with rst = 1 (R37), the host presenting nothing. -/
def State.reset : State where
  seg := ⟨0#7, 0#7, 0#7, 0#7⟩
  pt := ⟨false, false, false, false⟩
  phase := .idle
  dig := 0
  dwellCnt := 0
  latch := 0#8
  run := false
  scanCount := 0#16
  busy := false
  wrIdx := 0
  wrChars := 0#32
  errIllegal := false
  errFsm := false
  cfg := Config.deployed
  host := []
  encPat := 0#7
  resetSeen := true

end Sys2Proof.Machine
end

