-- ==== Sys2Proof/Machine/Ops.lean ====
section
/-! DEFINITION. The named operations over the registers and the host's schedule that every meaning uses:
00_scope.md R12's `SEG[d]`, `PT[d]`, `BufWrite` and `PtWrite` among them. The block takes no exceptions
(60_exceptions.md R180, R188), so there is no entry or return here; the sticky error bits are in Flags. -/

namespace Sys2Proof

/-- The value at a digit position. -/
def PerDigit.get {α : Type} (r : PerDigit α) (d : DigitPosition) : α :=
  match d with
  | 0 => r.d0
  | 1 => r.d1
  | 2 => r.d2
  | 3 => r.d3

/-- The value at a digit position replaced. -/
def PerDigit.set {α : Type} (r : PerDigit α) (d : DigitPosition) (a : α) : PerDigit α :=
  match d with
  | 0 => { r with d0 := a }
  | 1 => { r with d1 := a }
  | 2 => { r with d2 := a }
  | 3 => { r with d3 := a }

/-- The same value at every digit position. -/
def PerDigit.const {α : Type} (a : α) : PerDigit α := ⟨a, a, a, a⟩

namespace Machine

/-- PHASE as the 3-bit number of R25. -/
def Phase.code : Phase → BitVec 3
  | .idle => 0#3
  | .digOn => 1#3
  | .segOn => 2#3
  | .segOff => 3#3
  | .digOff => 4#3
  | .unreachable k => BitVec.ofNat 3 (5 + k.val)

/-- `SEG[d]`, the row of a digit (R12, R20). -/
def State.segRow (s : State) (d : DigitPosition) : Pattern := s.seg.get d

/-- `PT[d]`, the point flag of a digit (R12, R20). -/
def State.point (s : State) (d : DigitPosition) : Bool := s.pt.get d

/-- The 4 x 8 view of the buffer, `B[d]` (10_state.md R23): the row in bits 0 to 6, the point in bit 7. -/
def State.lineRow (s : State) (d : DigitPosition) : LineVector :=
  BitVec.ofBool (s.point d) ++ s.segRow d

/-- `BufWrite(d, p)` (R12). -/
def State.writeRow (s : State) (d : DigitPosition) (p : Pattern) : State :=
  { s with seg := s.seg.set d p }

/-- `PtWrite(d, v)` (R12). -/
def State.writePoint (s : State) (d : DigitPosition) (v : Bool) : State :=
  { s with pt := s.pt.set d v }

/-- Every cell of the buffer off (42_buffer_commands.md R121). -/
def State.clearBuffer (s : State) : State :=
  { s with seg := PerDigit.const 0#7, pt := PerDigit.const false }

/-- The row of a digit set to the pattern of a character (R124, R125, 41_encoder_rom.md R106). -/
def State.writeChar (s : State) (d : DigitPosition) (c : CharCode) : State :=
  s.writeRow d (enc s.cfg.glyph c)

/-- The engine stopped at digit 0 with every line off, as TEARDOWN and an unreachable PHASE leave it
(43_refresh_engine.md R147, R151). -/
def State.halt (s : State) : State :=
  { s with phase := .idle, dig := 0, dwellCnt := 0, latch := 0#8, run := false }

/-- The registers at their reset values (10_state.md R37), whatever they were; the parameters, the
host's schedule and the observed enc_pat are no registers and stay (log 3). -/
def State.resetRegisters (s : State) : State :=
  { State.reset with cfg := s.cfg, host := s.host, encPat := s.encPat }

/-- The inputs of this cycle, `in_n` (00_scope.md R11). -/
def State.presented (s : State) : Inputs := s.host.headD Inputs.idle

/-- The host's schedule moved on to the next cycle. -/
def State.nextCycle (s : State) : State := { s with host := s.host.tail }

/-- The state with the inputs of this cycle replaced. -/
def State.present (s : State) (i : Inputs) : State := { s with host := i :: s.host.tail }

/-- Put a port's word on its port in this cycle: a command presented with rst = 0 and cmd_valid = 1
(30_encoding.md R72), or a code on the ENCODE port (log 9). -/
def State.presentWord (s : State) : PortWord → State
  | .cmd w => s.present { s.presented with rst := false, cmdValid := true, cmd := w }
  | .encChar c => s.present { s.presented with encChar := c }

end Machine
end Sys2Proof
end

