-- ==== Sys2Proof/Machine/Flags.lean ====
section
/-! DEFINITION. The two sticky error flags (10_state.md R32, 60_exceptions.md R180 to R182) and the status word
computed from the registers (10_state.md R33). The block has no condition codes (R34). -/

namespace Sys2Proof.Machine

/-- ERR_ILLEGAL set (R181): `raise Illegal` of 00_scope.md R12. -/
def State.raiseIllegal (s : State) : State := { s with errIllegal := true }

/-- ERR_FSM set (R182). -/
def State.raiseFsm (s : State) : State := { s with errFsm := true }

/-- `status[31:0]` (R33), from bit 31 down: SCAN_COUNT, seven zeros, ERR_FSM, ERR_ILLEGAL, BUSY, DIG,
PHASE, RUN. -/
def State.status (s : State) : BitVec 32 :=
  s.scanCount ++ 0#7 ++ BitVec.ofBool s.errFsm ++ BitVec.ofBool s.errIllegal ++ BitVec.ofBool s.busy
    ++ BitVec.ofNat 2 s.dig.val ++ s.phase.code ++ BitVec.ofBool s.run

end Sys2Proof.Machine
end

