-- ==== Sys2Proof/Machine/Engine.lean ====
section
/-! DEFINITION. The refresh engine's own part of a clock cycle (43_refresh_engine.md section 2): what it writes at
the edge that ends a cycle in each phase, every read being of the state before the edge. -/

namespace Sys2Proof.Machine

/-- DIG_ON (R142): the latch takes the row and the point of the digit, the dwell counter its length. -/
def digOnEdge (s : State) : State :=
  { s with latch := s.lineRow s.dig, dwellCnt := s.cfg.reload.toNat, phase := .segOn }

/-- SEG_ON (R143): hold until the counter reads 0. -/
def segOnEdge (s : State) : State :=
  if s.dwellCnt = 0 then { s with phase := .segOff, latch := 0#8 }
  else { s with dwellCnt := s.dwellCnt - 1 }

/-- SEG_OFF (R144). -/
def segOffEdge (s : State) : State := { s with phase := .digOff }

/-- DIG_OFF (R145): the next digit, or the end of the scan pass with its count and its check of RUN. -/
def digOffEdge (s : State) : State :=
  if s.dig.val < 3 then { s with dig := s.dig + 1, phase := .digOn }
  else
    { s with
      scanCount := s.scanCount + 1#16
      dig := 0
      phase := if s.run then .digOn else .idle }

/-- IDLE (R148): nothing is written. -/
def idleEdge (s : State) : State := s

/-- PHASE 5 to 7 (R147): the engine stops and ERR_FSM is set. -/
def unreachableEdge (s : State) : State := s.halt.raiseFsm

/-- Part 1 of the step function (R160). -/
def engineEdge (s : State) : State :=
  match s.phase with
  | .idle => idleEdge s
  | .digOn => digOnEdge s
  | .segOn => segOnEdge s
  | .segOff => segOffEdge s
  | .digOff => digOffEdge s
  | .unreachable _ => unreachableEdge s

end Sys2Proof.Machine
end

