-- ==== Sys2Proof/Machine/Ports.lean ====
section
/-! DEFINITION. The outputs (10_state.md R36): functions of the state and of the inputs of the same cycle. -/

namespace Sys2Proof.Machine

/-- `cmd_ready = (rst = 0) and (BUSY = 0)` (30_encoding.md R73). -/
def State.cmdReady (s : State) : Bool := !s.presented.rst && !s.busy

/-- A command is accepted at the edge that ends this cycle (R72). -/
def State.accepts (s : State) : Bool := s.presented.cmdValid && s.cmdReady

/-- A digit is selected: PHASE is DIG_ON, SEG_ON or SEG_OFF (43_refresh_engine.md R140). -/
def Phase.active : Phase → Bool
  | .digOn => true
  | .segOn => true
  | .segOff => true
  | .idle => false
  | .digOff => false
  | .unreachable _ => false

/-- `dig_on[i]`, the logical state of a digit-select line (R140). -/
def State.digOn (s : State) (i : DigitPosition) : Bool := s.phase.active && decide (s.dig = i)

/-- `seg_on[j]`, the logical state of a segment line (R141). -/
def State.segOn (s : State) (j : SegmentLine) : Bool :=
  decide (s.phase = .segOn) && s.latch.getLsbD j.val

/-- The level of a line that is on or off (00_scope.md R13). -/
def lineLevel (on onLevel : Bool) : Bool := if on then onLevel else !onLevel

/-- `dig_line[3:0]` (R140). -/
def State.digLine (s : State) : BitVec 4 :=
  BitVec.ofFnLE fun i => lineLevel (s.digOn i) s.cfg.digitOnLevel

/-- `seg_line[7:0]` (R141). -/
def State.segLine (s : State) : BitVec 8 :=
  BitVec.ofFnLE fun j => lineLevel (s.segOn j) s.cfg.segOnLevel

/-- The output ports in one cycle (R36). -/
structure Outputs where
  cmdReady : Bool
  encPat : Pattern
  rdSeg : Pattern
  rdPt : Bool
  status : BitVec 32
  digLine : BitVec 4
  segLine : BitVec 8
  deriving DecidableEq, Repr

/-- What the output ports show in this cycle: cmd_ready (R73), the ROM at enc_char (41_encoder_rom.md
R105), the row and point at rd_pos (42_buffer_commands.md R126), the status word (R33) and the lines. -/
def State.outputs (s : State) : Outputs where
  cmdReady := s.cmdReady
  encPat := enc s.cfg.glyph s.presented.encChar
  rdSeg := s.segRow s.presented.rdPos
  rdPt := s.point s.presented.rdPos
  status := s.status
  digLine := s.digLine
  segLine := s.segLine

/-- The host reads the output ports. Before the first reset they have no value the spec gives, and the
read faults (70_reset_and_hazards.md R202, log 4). -/
def sampleOutputs (s : State) : Host.Outcome Outputs Fault Refusal :=
  if s.resetSeen then .next s.outputs else .fault .readBeforeReset

end Sys2Proof.Machine
end

