-- ==== Sys2Proof/Machine/Sequencer.lean ====
section
/-! DEFINITION. The write sequencer's part of a clock cycle (42_buffer_commands.md R125). -/

namespace Sys2Proof.Machine

/-- The row of the next digit written from WR_CHARS, and the sequencer moved on (R125). WR_IDX is 1, 2
or 3 in every state a run reaches (10_state.md R35); from 0 the rule's own words are followed (log 8). -/
def sequencerWrite (s : State) : State :=
  let t := s.writeChar s.wrIdx (charAt s.wrChars s.wrIdx)
  if s.wrIdx = 3 then { t with busy := false, wrIdx := 0 } else { t with wrIdx := s.wrIdx + 1 }

/-- Part 2 of the step function (43_refresh_engine.md R160). -/
def sequencerEdge (s : State) : State := if s.busy then sequencerWrite s else s

end Sys2Proof.Machine
end

