-- ==== Sys2Proof/Machine/Cycle.lean ====
section
/-! DEFINITION. One clock cycle (43_refresh_engine.md R160) over a given meaning of the instructions, and the placing of
an instruction on its port. -/

namespace Sys2Proof.Machine

/-- The engine's and the sequencer's parts of a cycle. The engine acts first and the two write
different registers, so each reads what the state before the edge holds (R160). -/
def innerEdge (s : State) : State := sequencerEdge (engineEdge s)

/-- Part 3 of the step function (R160): a command accepted in `s` acts on the next state `t` being
built; one that is not accepted has no effect (30_encoding.md R74). -/
def commandEdge (run : Instr → State → Outcome) (s t : State) : Outcome :=
  if s.accepts then run (decode (.cmd s.presented.cmd)) t else .next t

/-- The edge that ends a cycle, for the registers: reset overrides everything (R160, R200); a command
before the first reset faults (70_reset_and_hazards.md R202); else the three parts in order. `u` is `s`
with the model's own fields moved on to the next cycle. -/
def clockEdge (run : Instr → State → Outcome) (s u : State) : Outcome :=
  if s.presented.rst then .next u.resetRegisters
  else if !s.resetSeen && s.presented.cmdValid then .fault .commandBeforeReset
  else commandEdge run s (innerEdge u)

/-- `s_(n+1) = step(s_n, in_n)` (R11, R160), `in_n` being what the host presents: the ENCODE port is
served in the same cycle (41_encoder_rom.md R105), then the edge. -/
def cycle (run : Instr → State → Outcome) (s : State) : Outcome :=
  match run (decode (.encChar s.presented.encChar)) s.nextCycle with
  | .next u => clockEdge run s u
  | .fault r => .fault r
  | .refused r => .refused r

/-- `s` with the instruction of `nbits` bits `w` on the port the next step reads it from; bits that no
port takes leave it alone (log 9, log 15). -/
def State.placeBits (s : State) (nbits w : Nat) : State :=
  match portWordOf nbits w with
  | .ok p => s.presentWord p
  | .error _ => s

end Sys2Proof.Machine
end

