-- ==== Sys2Proof/Machine/BufferCommands.lean ====
section
/-! DEFINITION. The meanings of the buffer commands (42_buffer_commands.md R120 to R124): what an accepted command
writes into the next state being built (43_refresh_engine.md R160, part 3; log 7). -/

namespace Sys2Proof.Machine

/-- NOP (R120): no state is written. -/
def execNop (s : State) : Outcome := .next s

/-- CLEAR (R121): all 28 segment cells and all 4 point cells off. -/
def execClear (s : State) : Outcome := .next s.clearBuffer

/-- SETDIG (R122): the row of `pos`, not its point. -/
def execSetdig (pos : DigitPosition) (pat : Pattern) (s : State) : Outcome :=
  .next (s.writeRow pos pat)

/-- SETPT (R123): the point of `pos`, not its row. -/
def execSetpt (pos : DigitPosition) (v : Bool) (s : State) : Outcome :=
  .next (s.writePoint pos v)

/-- SETSTR (R124), first edge: row 0 at once, and the write sequencer set going for the other three. -/
def execSetstr (c0 c1 c2 c3 : CharCode) (s : State) : Outcome :=
  .next { s.writeChar 0 c0 with wrChars := packChars c0 c1 c2 c3, wrIdx := 1, busy := true }

end Sys2Proof.Machine
end

