-- ==== Sys2Proof/Machine/ControlCommands.lean ====
section
/-! DEFINITION. The meanings of START, STOP and TEARDOWN (43_refresh_engine.md R149 to R151) and of the reserved
opcodes (30_encoding.md R77), applied to the next state after the engine's own edge (R160; log 7). -/

namespace Sys2Proof.Machine

/-- START (R149): RUN set, and the engine taken out of IDLE at digit 0. -/
def execStart (t : State) : Outcome :=
  if t.phase = .idle then .next { t with run := true, phase := .digOn, dig := 0 }
  else .next { t with run := true }

/-- STOP (R150): RUN cleared. -/
def execStop (t : State) : Outcome := .next { t with run := false }

/-- TEARDOWN (R151): the engine in IDLE with every line off, at once. -/
def execTeardown (t : State) : Outcome := .next t.halt

/-- A reserved opcode (60_exceptions.md R181): ERR_ILLEGAL set, nothing else, whichever opcode it is. -/
def execReserved (_op : BitVec 4) (t : State) : Outcome := .next t.raiseIllegal

end Sys2Proof.Machine
end

