-- ==== Sys2Proof/Machine/EncodePort.lean ====
section
/-! DEFINITION. The meaning of a lookup on the ENCODE port (41_encoder_rom.md R105). -/

namespace Sys2Proof.Machine

/-- ENCODE (R105): the port shows the code's pattern; no register is read or written. What it showed is
kept in the model's field `encPat` (log 3). -/
def execEncode (c : CharCode) (s : State) : Outcome :=
  .next { s with encPat := enc s.cfg.glyph c }

end Sys2Proof.Machine
end

