-- ==== Sys2Proof/Machine/Dispatch.lean ====
section
/-! DEFINITION. One arm for each constructor of Instr: the opcode map of 30_encoding.md R75 and R77, and the lookup of
41_encoder_rom.md R105. -/

namespace Sys2Proof.Machine

def exec (i : Instr) (s : State) : Host.Outcome State Fault Refusal :=
  match i with
  | .nop => Sys2Proof.Machine.execNop s
  | .clear => Sys2Proof.Machine.execClear s
  | .setdig pos pat => Sys2Proof.Machine.execSetdig pos pat s
  | .setpt pos v => Sys2Proof.Machine.execSetpt pos v s
  | .setstr c0 c1 c2 c3 => Sys2Proof.Machine.execSetstr c0 c1 c2 c3 s
  | .start => Sys2Proof.Machine.execStart s
  | .stop => Sys2Proof.Machine.execStop s
  | .teardown => Sys2Proof.Machine.execTeardown s
  | .reserved op => Sys2Proof.Machine.execReserved op s
  | .encode c => Sys2Proof.Machine.execEncode c s

end Sys2Proof.Machine
end

