-- ==== Sys2Proof/Machine/Step.lean ====
section
/-! DEFINITION. The step function of the block: one clock cycle (43_refresh_engine.md R160). -/

namespace Sys2Proof.Machine

/-- One clock cycle. -/
def step (s : State) : Host.Outcome State Fault Refusal := cycle exec s

/-- `s` with an instruction presented in this cycle, for the very next step to run (log 9). -/
def State.withFetchWord (s : State) (nbits w : Nat) : State := s.placeBits nbits w

end Sys2Proof.Machine
end

