-- ==== Sys2Proof/Machine/Assembler.lean ====
section
/-! DEFINITION. The textual syntax for command sequences (30_encoding.md R79), its pseudo-instructions (R80), and the
host schedule the model takes a program to stand for: `n` cycles without a command for `WAIT n` (R79), and
one cycle for each command, in consecutive cycles, which R79 leaves open (DESIGN CHOICE, log 19). -/

namespace Sys2Proof.Machine

/-- Why the assembler refuses a line (R79). -/
inductive AsmError where
  | unknownMnemonic
  | badOperands
  | badNumber
  | badEscape
  | openString
  | positionOutOfRange
  | pointValueOutOfRange
  | patternOutOfRange
  | notFourCharacters
  | codeOutOfRange
  | dataOutOfRange
  | wordOutOfRange
  deriving DecidableEq, Repr

/-- The lines of R79, operands as written. -/
inductive AsmBasic where
  | nop
  | clear
  | setdig (pos pat : Nat)
  | setpt (pos v : Nat)
  | setstr (codes : List Nat)
  | setstrData (data : Nat)
  | start
  | stop
  | teardown
  | word (w : Nat)
  | wait (n : Nat)
  deriving DecidableEq, Repr

/-- The lines of R79 and the pseudo-instructions of R80. -/
inductive AsmLine where
  | basic (b : AsmBasic)
  | blank (pos : Nat)
  | setpts (v0 v1 v2 v3 : Nat)
  | clrpts
  | show (codes : List Nat)
  deriving DecidableEq, Repr

/-- The expansions of R80. -/
def AsmLine.expand : AsmLine → List AsmBasic
  | .basic b => [b]
  | .blank pos => [.setdig pos 0x00]
  | .setpts v0 v1 v2 v3 => [.setpt 0 v0, .setpt 1 v1, .setpt 2 v2, .setpt 3 v3]
  | .clrpts => [.setpt 0 0, .setpt 1 0, .setpt 2 0, .setpt 3 0]
  | .show codes => [.setstr codes, .wait 3]

/-- The four codes of a string operand: exactly four, each of 8 bits (R79). -/
def fourCodes : List Nat → Except AsmError CharWord
  | [c0, c1, c2, c3] =>
    if c0 < 256 ∧ c1 < 256 ∧ c2 < 256 ∧ c3 < 256 then
      .ok (packChars (BitVec.ofNat 8 c0) (BitVec.ofNat 8 c1) (BitVec.ofNat 8 c2) (BitVec.ofNat 8 c3))
    else .error .codeOutOfRange
  | _ => .error .notFourCharacters

/-- The cycles of one line (R79): a word presented, or none for a cycle of `WAIT`. -/
def AsmBasic.cycles : AsmBasic → Except AsmError (List (Option CmdWord))
  | .nop => .ok [some (cmdWord 0x0#4 0 false 0#32)]
  | .clear => .ok [some (cmdWord 0x1#4 0 false 0#32)]
  | .setdig pos pat =>
    if hp : pos < 4 then
      if pat ≤ 0x7F then .ok [some (cmdWord 0x2#4 ⟨pos, hp⟩ false (BitVec.ofNat 32 pat))]
      else .error .patternOutOfRange
    else .error .positionOutOfRange
  | .setpt pos v =>
    if hp : pos < 4 then
      if v ≤ 1 then .ok [some (cmdWord 0x3#4 ⟨pos, hp⟩ (v == 1) 0#32)]
      else .error .pointValueOutOfRange
    else .error .positionOutOfRange
  | .setstr codes =>
    match fourCodes codes with
    | .ok data => .ok [some (cmdWord 0x4#4 0 false data)]
    | .error e => .error e
  | .setstrData data =>
    if data < 2 ^ 32 then .ok [some (cmdWord 0x4#4 0 false (BitVec.ofNat 32 data))]
    else .error .dataOutOfRange
  | .start => .ok [some (cmdWord 0x5#4 0 false 0#32)]
  | .stop => .ok [some (cmdWord 0x6#4 0 false 0#32)]
  | .teardown => .ok [some (cmdWord 0x7#4 0 false 0#32)]
  | .word w => if w < 2 ^ 40 then .ok [some (BitVec.ofNat 40 w)] else .error .wordOutOfRange
  | .wait n => .ok (List.replicate n none)

/-- The inputs of a cycle in which the host presents a word, or nothing; no reset, and code and position 0
on the combinational ports (log 2, log 19). -/
def Inputs.ofCycle : Option CmdWord → Inputs
  | some w => { Inputs.idle with cmdValid := true, cmd := w }
  | none => Inputs.idle

/-- The cycles of lines one after another, or the first error. R79 gives each command's word and not the
cycle it is presented in; the model presents it once, in the cycle after the line before it is through,
and never again, ready or not (DESIGN CHOICE, log 19). -/
def assembleBasics : List AsmBasic → Except AsmError (List Inputs)
  | [] => .ok []
  | b :: bs =>
    match b.cycles, assembleBasics bs with
    | .ok ws, .ok rest => .ok (ws.map Inputs.ofCycle ++ rest)
    | .error e, _ => .error e
    | .ok _, .error e => .error e

/-- The host schedule of a program (log 19). -/
def assemble (lines : List AsmLine) : Except AsmError (List Inputs) :=
  assembleBasics (lines.flatMap AsmLine.expand)

/-! The text (R79): one line at a time, as characters. -/

/-- What a line is made of. -/
inductive Token where
  | word (cs : List Char)
  | str (codes : List Nat)
  | comma
  deriving DecidableEq, Repr

/-- Where in a token the scanner is: between tokens, in a word, in a string, after its backslash, and in
the two digits of `\xHH`; what is read so far stands reversed. -/
inductive ScanMode where
  | gap
  | word (rev : List Char)
  | str (rev : List Nat)
  | escape (rev : List Nat)
  | hexHigh (rev : List Nat)
  | hexLow (rev : List Nat) (hi : Nat)
  deriving DecidableEq, Repr

/-- The value of a hexadecimal digit, in either case. -/
def hexDigit (c : Char) : Option Nat :=
  if '0' ≤ c ∧ c ≤ '9' then some (c.toNat - 0x30)
  else if 'a' ≤ c ∧ c ≤ 'f' then some (c.toNat - 0x61 + 10)
  else if 'A' ≤ c ∧ c ≤ 'F' then some (c.toNat - 0x41 + 10)
  else none

/-- A blank between tokens (log 13). -/
def isBlank (c : Char) : Bool := c.toNat = 0x20 || c.toNat = 0x09 || c.toNat = 0x0D

/-- A token in front of what follows. -/
def thenTokens (t : Token) : Except AsmError (List Token) → Except AsmError (List Token)
  | .ok ts => .ok (t :: ts)
  | .error e => .error e

/-- The tokens of a line. `;` (0x3B) starts a comment, and a string stands between quotes (0x22) and holds
the escapes `\xHH`, `\\` and `\"` (R79). R79 does not say whether a `;` inside a string starts a comment:
that it is a character of the string, as every other one is, is the model's choice (log 13), and so are
the blanks and where a word ends. -/
def scan : ScanMode → List Char → Except AsmError (List Token)
  | .gap, [] => .ok []
  | .word rev, [] => .ok [.word rev.reverse]
  | .str _, [] => .error .openString
  | .escape _, [] => .error .openString
  | .hexHigh _, [] => .error .openString
  | .hexLow _ _, [] => .error .openString
  | .gap, c :: cs =>
    if isBlank c then scan .gap cs
    else if c.toNat = 0x3B then .ok []
    else if c.toNat = 0x2C then thenTokens .comma (scan .gap cs)
    else if c.toNat = 0x22 then scan (.str []) cs
    else scan (.word [c]) cs
  | .word rev, c :: cs =>
    if isBlank c then thenTokens (.word rev.reverse) (scan .gap cs)
    else if c.toNat = 0x3B then .ok [.word rev.reverse]
    else if c.toNat = 0x2C then
      thenTokens (.word rev.reverse) (thenTokens .comma (scan .gap cs))
    else if c.toNat = 0x22 then thenTokens (.word rev.reverse) (scan (.str []) cs)
    else scan (.word (c :: rev)) cs
  | .str rev, c :: cs =>
    if c.toNat = 0x22 then thenTokens (.str rev.reverse) (scan .gap cs)
    else if c.toNat = 0x5C then scan (.escape rev) cs
    else scan (.str (c.toNat :: rev)) cs
  | .escape rev, c :: cs =>
    if c.toNat = 0x78 then scan (.hexHigh rev) cs
    else if c.toNat = 0x5C ∨ c.toNat = 0x22 then scan (.str (c.toNat :: rev)) cs
    else .error .badEscape
  | .hexHigh rev, c :: cs =>
    match hexDigit c with
    | some hi => scan (.hexLow rev hi) cs
    | none => .error .badEscape
  | .hexLow rev hi, c :: cs =>
    match hexDigit c with
    | some lo => scan (.str ((16 * hi + lo) :: rev)) cs
    | none => .error .badEscape

/-- Digits read in a base, from the most significant one. -/
def digitsValue (base : Nat) : Nat → List Char → Option Nat
  | acc, [] => some acc
  | acc, c :: cs =>
    match hexDigit c with
    | some d => if d < base then digitsValue base (base * acc + d) cs else none
    | none => none

/-- A number, decimal or `0x` hexadecimal (R79). -/
def numberOf (cs : List Char) : Option Nat :=
  match cs with
  | [] => none
  | ['0', 'x'] => none
  | '0' :: 'x' :: ds => digitsValue 16 0 ds
  | ds => digitsValue 10 0 ds

/-- The numbers of an operand list, separated by commas. -/
def numbersOf : List Token → Except AsmError (List Nat)
  | [] => .ok []
  | [.word cs] =>
    match numberOf cs with
    | some n => .ok [n]
    | none => .error .badNumber
  | .word cs :: .comma :: t :: ts =>
    match numberOf cs, numbersOf (t :: ts) with
    | some n, .ok ns => .ok (n :: ns)
    | none, _ => .error .badNumber
    | some _, .error e => .error e
  | _ => .error .badOperands

/-- The mnemonics of R79 and R80. -/
inductive Mnemonic where
  | nop | clear | setdig | setpt | setstr | start | stop | teardown | word | wait
  | blank | setpts | clrpts | show
  deriving DecidableEq, Repr

/-- A mnemonic in capitals (mnemonics are case-insensitive, R79). -/
def mnemonicOf (cs : List Char) : Option Mnemonic :=
  match cs with
  | ['N', 'O', 'P'] => some .nop
  | ['C', 'L', 'E', 'A', 'R'] => some .clear
  | ['S', 'E', 'T', 'D', 'I', 'G'] => some .setdig
  | ['S', 'E', 'T', 'P', 'T'] => some .setpt
  | ['S', 'E', 'T', 'S', 'T', 'R'] => some .setstr
  | ['S', 'T', 'A', 'R', 'T'] => some .start
  | ['S', 'T', 'O', 'P'] => some .stop
  | ['T', 'E', 'A', 'R', 'D', 'O', 'W', 'N'] => some .teardown
  | ['.', 'W', 'O', 'R', 'D'] => some .word
  | ['W', 'A', 'I', 'T'] => some .wait
  | ['B', 'L', 'A', 'N', 'K'] => some .blank
  | ['S', 'E', 'T', 'P', 'T', 'S'] => some .setpts
  | ['C', 'L', 'R', 'P', 'T', 'S'] => some .clrpts
  | ['S', 'H', 'O', 'W'] => some .show
  | _ => none

/-- A line from its mnemonic and its number operands. -/
def lineOfNumbers : Mnemonic → List Nat → Option AsmLine
  | .nop, [] => some (.basic .nop)
  | .clear, [] => some (.basic .clear)
  | .setdig, [pos, pat] => some (.basic (.setdig pos pat))
  | .setpt, [pos, v] => some (.basic (.setpt pos v))
  | .setstr, [data] => some (.basic (.setstrData data))
  | .start, [] => some (.basic .start)
  | .stop, [] => some (.basic .stop)
  | .teardown, [] => some (.basic .teardown)
  | .word, [w] => some (.basic (.word w))
  | .wait, [n] => some (.basic (.wait n))
  | .blank, [pos] => some (.blank pos)
  | .setpts, [v0, v1, v2, v3] => some (.setpts v0 v1 v2 v3)
  | .clrpts, [] => some .clrpts
  | _, _ => none

/-- A line from its mnemonic and operands: a string for SETSTR and SHOW, numbers for the others. -/
def lineOf (m : Mnemonic) (ops : List Token) : Except AsmError AsmLine :=
  match m, ops with
  | .setstr, [.str codes] => .ok (.basic (.setstr codes))
  | .show, [.str codes] => .ok (.show codes)
  | _, _ =>
    match numbersOf ops with
    | .error e => .error e
    | .ok ns =>
      match lineOfNumbers m ns with
      | some l => .ok l
      | none => .error .badOperands

/-- One line of text: nothing (blank or comment), or a line of the syntax. -/
def parseLine (text : List Char) : Except AsmError (List AsmLine) :=
  match scan .gap text with
  | .error e => .error e
  | .ok [] => .ok []
  | .ok (.word cs :: ops) =>
    match mnemonicOf (cs.map Char.toUpper) with
    | none => .error .unknownMnemonic
    | some m =>
      match lineOf m ops with
      | .ok l => .ok [l]
      | .error e => .error e
  | .ok _ => .error .unknownMnemonic

/-- Lines of text parsed one after another, or the first error. -/
def parseLines : List (List Char) → Except AsmError (List AsmLine)
  | [] => .ok []
  | l :: ls =>
    match parseLine l, parseLines ls with
    | .ok a, .ok b => .ok (a ++ b)
    | .error e, _ => .error e
    | .ok _, .error e => .error e

/-- The host schedule of a program given as lines of text (log 19). -/
def assembleText (lines : List (List Char)) : Except AsmError (List Inputs) :=
  match parseLines lines with
  | .ok ls => assemble ls
  | .error e => .error e

end Sys2Proof.Machine
end

