-- ==== Sys2Proof/Safety.lean ====
section
/-! DEFINITION. The terms claims are stated in: the invariant of 10_state.md R35, quiescence (70_reset_and_hazards.md
R218), what a command leaves as it was, what the host presents, runs of several cycles, and how the assembler's text
is written (30_encoding.md R79). -/

namespace Sys2Proof.Machine

/-- The invariant of R35, clauses (a) to (f) in order. -/
abbrev State.Inv (s : State) : Prop :=
  (∀ k, s.phase ≠ .unreachable k) ∧
  (s.phase ≠ .segOn → s.dwellCnt = 0 ∧ s.latch = 0#8) ∧
  (s.phase = .segOn → s.dwellCnt ≤ s.cfg.dwellCycles - 1) ∧
  (s.phase = .idle → s.run = false) ∧
  (s.busy = false → s.wrIdx = 0) ∧
  s.errFsm = false

/-- A quiescent state: PHASE = IDLE and BUSY = 0 (R218). -/
abbrev State.Quiescent (s : State) : Prop := s.phase = .idle ∧ s.busy = false

/-- Every digit-select line and every segment line is off. -/
abbrev State.LinesOff (s : State) : Prop := (∀ i, s.digOn i = false) ∧ (∀ j, s.segOn j = false)

/-! What is left as it was, by the groups of 10_state.md. -/

/-- Every cell of the display buffer is unchanged. -/
abbrev BufferKept (s t : State) : Prop :=
  (∀ d, t.segRow d = s.segRow d) ∧ (∀ d, t.point d = s.point d)

/-- PHASE, DIG, DWELL_CNT, LATCH, RUN and SCAN_COUNT are unchanged. -/
abbrev EngineKept (s t : State) : Prop :=
  t.phase = s.phase ∧ t.dig = s.dig ∧ t.dwellCnt = s.dwellCnt ∧ t.latch = s.latch ∧
  t.run = s.run ∧ t.scanCount = s.scanCount

/-- BUSY, WR_IDX and WR_CHARS are unchanged. -/
abbrev SequencerKept (s t : State) : Prop :=
  t.busy = s.busy ∧ t.wrIdx = s.wrIdx ∧ t.wrChars = s.wrChars

/-- The two sticky error flags are unchanged. -/
abbrev ErrorsKept (s t : State) : Prop := t.errIllegal = s.errIllegal ∧ t.errFsm = s.errFsm

/-- The model's own fields are unchanged. -/
abbrev ModelKept (s t : State) : Prop :=
  t.cfg = s.cfg ∧ t.host = s.host ∧ t.encPat = s.encPat ∧ t.resetSeen = s.resetSeen

/-- Every register of the spec is unchanged. -/
abbrev RegistersKept (s t : State) : Prop :=
  BufferKept s t ∧ EngineKept s t ∧ SequencerKept s t ∧ ErrorsKept s t

/-! What the host presents. -/

/-- The inputs present a command, this one. -/
abbrev Inputs.Calls (i : Inputs) (c : Instr) : Prop := i.cmdValid = true ∧ decodeCmd i.cmd = c

/-- Inputs that cut no scan pass short: no reset and no TEARDOWN (43_refresh_engine.md R146, R153). -/
abbrev Inputs.Uncut (i : Inputs) : Prop := i.rst = false ∧ ¬ i.Calls .teardown

/-- A command accepted in this cycle, this one (30_encoding.md R72). -/
abbrev State.AcceptsCommand (s : State) (c : Instr) : Prop :=
  s.accepts = true ∧ decodeCmd s.presented.cmd = c

/-- None of START, STOP and TEARDOWN is accepted in this cycle. -/
abbrev State.NoEngineCommand (s : State) : Prop :=
  ¬ s.AcceptsCommand .start ∧ ¬ s.AcceptsCommand .stop ∧ ¬ s.AcceptsCommand .teardown

/-- A buffer command is accepted in this cycle: CLEAR, SETDIG, SETPT or SETSTR, by its opcode
(30_encoding.md R75). -/
abbrev State.AcceptsBufferWrite (s : State) : Prop :=
  s.accepts = true ∧ (opcodeOf s.presented.cmd = 0x1#4 ∨ opcodeOf s.presented.cmd = 0x2#4 ∨
    opcodeOf s.presented.cmd = 0x3#4 ∨ opcodeOf s.presented.cmd = 0x4#4)

/-- The inputs of this cycle with no command presented. -/
def State.withoutCommand (s : State) : State := s.present { s.presented with cmdValid := false }

/-- The bits of a command word its opcode gives a meaning to: OP, and the fields of 30_encoding.md R76. -/
def usedBits (op : BitVec 4) : CmdWord :=
  match op with
  | 0x2#4 => 0xFC0000007F
  | 0x3#4 => 0xFE00000000
  | 0x4#4 => 0xF0FFFFFFFF
  | _ => 0xF000000000

/-- The state the edge acts on: the host's schedule moved on and the ENCODE port served
(41_encoder_rom.md R105), no register changed. -/
def State.served (s : State) : State :=
  { s.nextCycle with encPat := enc s.cfg.glyph s.presented.encChar }

/-! Runs. -/

/-- `n` cycles from `s` end in `t`: `s_0 = s`, `s_n = t` (70_reset_and_hazards.md R218). -/
abbrev Reaches (n : Nat) (s t : State) : Prop := Host.Core.run Sys2Proof.core n s = .next t

/-- The engine's control registers agree: all of it but LATCH, which shows the buffer. -/
abbrev SameEngineControl (s t : State) : Prop :=
  t.phase = s.phase ∧ t.dig = s.dig ∧ t.dwellCnt = s.dwellCnt ∧ t.run = s.run ∧
  t.scanCount = s.scanCount ∧ t.errFsm = s.errFsm

/-! How long a write takes to be seen (20_memory.md R61, 70_reset_and_hazards.md R211). -/

/-- The commands that write row `d` of the display buffer (42_buffer_commands.md R121, R122, R124). -/
def writesRow (d : DigitPosition) : Instr → Bool
  | .clear => true
  | .setdig pos _ => pos == d
  | .setstr _ _ _ _ => true
  | .nop => false
  | .setpt _ _ => false
  | .start => false
  | .stop => false
  | .teardown => false
  | .reserved _ => false
  | .encode _ => false

/-- The commands that write the point of digit `d` (R121, R123). -/
def writesPoint (d : DigitPosition) : Instr → Bool
  | .clear => true
  | .setpt pos _ => pos == d
  | .setdig _ _ => false
  | .setstr _ _ _ _ => false
  | .nop => false
  | .start => false
  | .stop => false
  | .teardown => false
  | .reserved _ => false
  | .encode _ => false

/-- The engine runs through: no reset, no TEARDOWN and no STOP is presented. -/
abbrev Inputs.RunsOn (i : Inputs) : Prop := i.Uncut ∧ ¬ i.Calls .stop

/-- The edge that ends this cycle loads the latch for digit `d` (43_refresh_engine.md R142). -/
abbrev State.LoadsLatch (s : State) (d : DigitPosition) : Prop := s.phase = .digOn ∧ s.dig = d

/-- The edge `m` cycles on is the first latch load of digit `d` at an edge from the `first` on. -/
def NextLoad (s : State) (d : DigitPosition) (first m : Nat) : Prop :=
  first ≤ m ∧ (∃ u, Reaches m s u ∧ u.LoadsLatch d) ∧
  ∀ (k : Nat) (u : State), first ≤ k → k < m → Reaches k s u → ¬ u.LoadsLatch d

/-- What an edge `e` cycles on writes to digit `d` is on the lines in the cycle after the next latch load
of that digit, `m`, at most `4 x P + 1` cycles after that edge's, and shows there as `shown` says, if no
command presented from cycle `ready` to the cycle before the load overwrites it. -/
def SeenAtNextLoad (s : State) (d : DigitPosition) (e ready : Nat) (overwrites : Instr → Bool)
    (shown : State → Prop) : Prop :=
  ∃ m, NextLoad s d (e + 1) m ∧ m ≤ e + 4 * s.cfg.digitCycles ∧
    ((∀ i ∈ (s.host.take m).drop ready, i.cmdValid = true → overwrites (decodeCmd i.cmd) = false) →
      ∃ t, Reaches (m + 1) s t ∧ t.phase = .segOn ∧ t.digOn d = true ∧ shown t)

/-! The assembler's words and text (30_encoding.md R79, R80). -/

/-- A line's one word is the instruction's, with every field the instruction does not use 0. -/
def AsmBasic.Means (b : AsmBasic) (i : Instr) : Prop :=
  ∃ w, b.cycles = .ok [some w] ∧ decodeCmd w = i ∧ w &&& usedBits (opcodeOf w) = w

/-- The characters of a number, decimal or `0x` hexadecimal, its digits `ds` from the least significant one. -/
def Numeral (cs : List Char) (n : Nat) : Prop :=
  ∃ ds : List Nat, ds ≠ [] ∧
    (((∀ d ∈ ds, d < 10) ∧ cs = ds.reverse.map Nat.digitChar ∧ n = Nat.ofDigits 10 ds) ∨
      ∃ hs, (∀ d ∈ ds, d < 16) ∧ cs = '0' :: 'x' :: hs ∧
        hs.map Char.toLower = ds.reverse.map Nat.digitChar ∧ n = Nat.ofDigits 16 ds)

/-- The quote, which a string stands between. -/
def quoteChar : Char := Char.ofNat 0x22

/-- The backslash, which begins an escape. -/
def backslashChar : Char := Char.ofNat 0x5C

/-- What stands between the quotes of a string, and the codes it writes: a character its own code, a `;`
among them (log 13), and the escapes `\xHH`, `\\` and `\"`. -/
inductive StringBody : List Char → List Nat → Prop where
  | done : StringBody [] []
  | plain (c : Char) {cs : List Char} {ns : List Nat} : c ≠ quoteChar → c ≠ backslashChar →
      StringBody cs ns → StringBody (c :: cs) (c.toNat :: ns)
  | hex {h l : Char} {a b : Nat} {cs : List Char} {ns : List Nat} : a < 16 → b < 16 →
      h.toLower = Nat.digitChar a → l.toLower = Nat.digitChar b → StringBody cs ns →
      StringBody (backslashChar :: 'x' :: h :: l :: cs) ((16 * a + b) :: ns)
  | backslash {cs : List Char} {ns : List Nat} : StringBody cs ns →
      StringBody (backslashChar :: backslashChar :: cs) (backslashChar.toNat :: ns)
  | quote {cs : List Char} {ns : List Nat} : StringBody cs ns →
      StringBody (backslashChar :: quoteChar :: cs) (quoteChar.toNat :: ns)

/-- A character of a word: no blank, no comma, no quote and no `;`. -/
abbrev WordChar (c : Char) : Prop :=
  c ≠ ' ' ∧ c ≠ '\t' ∧ c ≠ '\r' ∧ c ≠ ',' ∧ c ≠ ';' ∧ c ≠ quoteChar

/-- How the tokens of a line are written: blanks anywhere between them, a `;` and a comment after the last, a
word up to the first character that is of no word. -/
inductive Spells : List Token → List Char → Prop where
  | done : Spells [] []
  | comment (r : List Char) : Spells [] (';' :: r)
  | blank {c : Char} {ts : List Token} {cs : List Char} : c = ' ' ∨ c = '\t' ∨ c = '\r' →
      Spells ts cs → Spells ts (c :: cs)
  | comma {ts : List Token} {cs : List Char} : Spells ts cs → Spells (.comma :: ts) (',' :: cs)
  | str {body : List Char} {ns : List Nat} {ts : List Token} {cs : List Char} : StringBody body ns →
      Spells ts cs → Spells (.str ns :: ts) (quoteChar :: body ++ quoteChar :: cs)
  | word {w : List Char} {ts : List Token} {cs : List Char} : w ≠ [] → (∀ c ∈ w, WordChar c) →
      (∀ c ∈ cs.head?, ¬ WordChar c) → Spells ts cs → Spells (.word w :: ts) (w ++ cs)

/-- A word is this mnemonic, in capital or small letters. -/
abbrev NamesMnemonic (w : List Char) (name : String) : Prop := w.map Char.toUpper = name.toList

/-- The tokens of a list of numbers, separated by commas. -/
def numberTokens : List (List Char) → List Token
  | [] => []
  | [a] => [.word a]
  | a :: b :: rest => .word a :: .comma :: numberTokens (b :: rest)

end Sys2Proof.Machine
end

