-- ==== Sys2Proof/Certificates/Slice0/Obligations.lean ====
section
/-! DEFINITION. The statements for the provers. Each docstring names the rules of spec/ it formalises. "Accepted" is
30_encoding.md R72; `s` is the state during a cycle, `t` the state in the next. -/

open Sys2Proof Sys2Proof.Machine

/-! ## Encoding (30_encoding.md) -/

/-- Decoding what the encoder gives for a well-formed instruction gives that instruction, with every
operand at every value (R70, R71, R75, R105). -/
def Obligations.DecodeUndoesEncode : Prop :=
  ∀ i : Instr, i.wellFormed = true → decode (encode i) = i

/-- The other direction: encoding what a command word decodes to gives the word back, less the bits its
opcode gives no meaning to (R70, R75, R76). -/
def Obligations.EncodeUndoesDecodeUpToIgnoredBits : Prop :=
  ∀ w : CmdWord, encode (decodeCmd w) = .cmd (w &&& usedBits (opcodeOf w)) ∧
    (decodeCmd w).wellFormed = true

/-- R75: OP alone selects the command, as its table says; and the word selects exactly one row of
opcode_table.json, that command's. -/
def Obligations.OpcodeAloneSelectsTheCommand : Prop :=
  ∀ w : CmdWord,
    (decodeCmd w).mnemonic =
      ["NOP", "CLEAR", "SETDIG", "SETPT", "SETSTR", "START", "STOP", "TEARDOWN"].getD
        (w.toNat / 2 ^ 36) "RESERVED" ∧
    (cmdTable.filter fun r => r.selects w).map TableRow.mnemonic = [(decodeCmd w).mnemonic]

/-- R70, R71: where the operands stand, by the arithmetic of the 40-bit number. -/
def Obligations.OperandsStandWhereTheFormatSays : Prop :=
  ∀ w : CmdWord,
    (w.toNat / 2 ^ 36 = 2 → ∃ pos pat, decodeCmd w = .setdig pos pat ∧
      pos.val = w.toNat / 2 ^ 34 % 4 ∧ pat.toNat = w.toNat % 128) ∧
    (w.toNat / 2 ^ 36 = 3 → ∃ pos v, decodeCmd w = .setpt pos v ∧
      pos.val = w.toNat / 2 ^ 34 % 4 ∧ v.toNat = w.toNat / 2 ^ 33 % 2) ∧
    (w.toNat / 2 ^ 36 = 4 → ∃ c0 c1 c2 c3, decodeCmd w = .setstr c0 c1 c2 c3 ∧
      c0.toNat = w.toNat / 2 ^ 24 % 256 ∧ c1.toNat = w.toNat / 2 ^ 16 % 256 ∧
      c2.toNat = w.toNat / 2 ^ 8 % 256 ∧ c3.toNat = w.toNat % 256)

/-- The words of 30_encoding.md section 6, and of a reserved opcode, decode to what they stand for. -/
def Obligations.ReferenceWordsDecode : Prop :=
  decodeCmd 0x0000000000 = .nop ∧ decodeCmd 0x1000000000 = .clear ∧
  decodeCmd 0x280000005B = .setdig 2 0x5B#7 ∧ decodeCmd 0x3600000000 = .setpt 1 true ∧
  decodeCmd 0x3C00000000 = .setpt 3 false ∧
  decodeCmd 0x4031323334 = .setstr 0x31#8 0x32#8 0x33#8 0x34#8 ∧
  decodeCmd 0x5000000000 = .start ∧ decodeCmd 0x6000000000 = .stop ∧
  decodeCmd 0x7000000000 = .teardown ∧ decodeCmd 0x9000000000 = .reserved 0x9#4 ∧
  decodeTableWord 8 0x38 = some (.encode 0x38#8)

/-- R76: the effect of a presented word does not depend on the fields its command does not use. -/
def Obligations.IgnoredFieldsHaveNoEffect : Prop :=
  ∀ (s : State) (w w' : CmdWord), w &&& usedBits (opcodeOf w) = w' &&& usedBits (opcodeOf w) →
    step (s.presentWord (.cmd w)) = step (s.presentWord (.cmd w'))

/-! ## The cycle and the command port (30_encoding.md R72 to R74, 43_refresh_engine.md R160) -/

/-- A step runs the decoded instruction (R72, R160): an accepted command is `exec` of what its word
decodes to, on the state after the engine's own edge, with the ENCODE port served and the host's
schedule moved on; with no command accepted the step is the engine's and the sequencer's edge alone; and
an instruction placed on its port is the one the next step runs. Of this the model's own choices are: that
withFetchWord places a word on a port (log 9, DESIGN CHOICE), that 8 bits go to the ENCODE port and 40
to the command port (log 15, DESIGN CHOICE), that exec of a command acts on the state after the engine's
edge (log 7, DEDUCED), and that the ENCODE port is served by exec first in every state, during reset and
before the first reset too (log 14, DEDUCED from 41_encoder_rom.md R105). -/
def Obligations.StepRunsTheDecodedInstruction : Prop :=
  (∀ s : State, s.resetSeen = true → s.accepts = true →
    step s = exec (decodeCmd s.presented.cmd) (engineEdge s.served)) ∧
  (∀ s : State, s.resetSeen = true → s.presented.rst = false → s.accepts = false →
    step s = .next (sequencerEdge (engineEdge s.served))) ∧
  (∀ (s : State) (w : CmdWord), s.resetSeen = true → s.busy = false →
    step (s.withFetchWord 40 w.toNat) =
      exec (decodeCmd w) (engineEdge (s.withFetchWord 40 w.toNat).served)) ∧
  (∀ (s : State) (c : CharCode), ∃ u, exec (.encode c) s.nextCycle = .next u ∧
    step (s.withFetchWord 8 c.toNat) = clockEdge exec (s.withFetchWord 8 c.toNat) u)

/-- R72 and R73: cmd_ready and acceptance; a command is accepted exactly when rst = 0, cmd_valid = 1 and
cmd_ready = 1, and cmd_ready is (rst = 0) and (BUSY = 0) whatever the engine does. -/
def Obligations.AcceptanceNeedsValidAndReady : Prop :=
  ∀ s : State,
    (s.cmdReady = true ↔ s.presented.rst = false ∧ s.busy = false) ∧
    (s.accepts = true ↔
      s.presented.rst = false ∧ s.presented.cmdValid = true ∧ s.cmdReady = true) ∧
    s.outputs.cmdReady = s.cmdReady

/-- R74: a command presented while cmd_ready = 0 is not stored and has no effect: the step is what it is
with nothing presented. And the block does not keep the host waiting for more than 3 cycles outside
reset, from a state whose WR_IDX is not 0 while BUSY = 1 (IndicesAndCounterStayInRange). -/
def Obligations.CommandNotReadyIsDropped : Prop :=
  (∀ s : State, s.resetSeen = true → s.cmdReady = false → step s = step s.withoutCommand) ∧
  (∀ s : State, s.resetSeen = true → (s.busy = true → s.wrIdx ≠ 0) →
    (∀ i ∈ s.host.take 4, i.rst = false) →
    ∃ (k : Nat) (t : State), k ≤ 3 ∧ Reaches k s t ∧ t.cmdReady = true)

/-- R218: the block never halts: after the first reset every number of cycles leads to a next state. -/
def Obligations.BlockNeverHalts : Prop :=
  ∀ (n : Nat) (s : State), s.resetSeen = true → ∃ t, Reaches n s t ∧ t.resetSeen = true

/-- R218: a quiescent state with rst = 0 and cmd_valid = 0 keeps every register and every line, however
many cycles go by. -/
def Obligations.QuiescentStateStays : Prop :=
  ∀ (n : Nat) (s : State), s.Quiescent →
    (∀ i ∈ s.host.take n, i.rst = false ∧ i.cmdValid = false) →
    ∃ t, Reaches n s t ∧ RegistersKept s t ∧ t.cfg = s.cfg ∧ t.resetSeen = s.resetSeen ∧
      t.status = s.status ∧ t.digLine = s.digLine ∧ t.segLine = s.segLine

/-! ## The meanings of the instructions (42_buffer_commands.md, 43_refresh_engine.md section 4, 60_exceptions.md R181,
41_encoder_rom.md R105) -/

/-- R120: NOP writes no state, the all-zero word is a NOP, and an accepted NOP cannot be told from
cmd_valid = 0. -/
def Obligations.NopWritesNothing : Prop :=
  (∀ w : CmdWord, opcodeOf w = 0x0#4 → decodeCmd w = .nop) ∧ decodeCmd 0 = .nop ∧
  (∀ s : State, exec .nop s = .next s) ∧
  (∀ s : State, s.resetSeen = true → s.AcceptsCommand .nop → step s = step s.withoutCommand)

/-- R121: CLEAR turns all 28 segment cells and all 4 point cells off and changes nothing else: not the
latch, the engine, the sequencer, the error flags or SCAN_COUNT; on a clear buffer it changes nothing. -/
def Obligations.ClearBlanksEveryCell : Prop :=
  (∀ w : CmdWord, opcodeOf w = 0x1#4 → decodeCmd w = .clear) ∧
  (∀ s : State, ∃ t, exec .clear s = .next t ∧
    (∀ (d : DigitPosition) (k : Nat), (t.segRow d).getLsbD k = false) ∧
    (∀ d, t.point d = false) ∧
    EngineKept s t ∧ SequencerKept s t ∧ ErrorsKept s t ∧ ModelKept s t) ∧
  (∀ s : State, (∀ d, s.segRow d = 0#7 ∧ s.point d = false) → exec .clear s = .next s)

/-- R122: SETDIG writes the seven cells of its row from DATA[6:0] and nothing else: no other row, no
point (DATA[7] is not the point), no register. -/
def Obligations.SetdigWritesItsRow : Prop :=
  (∀ w : CmdWord, opcodeOf w = 0x2#4 → decodeCmd w = .setdig (posOf w) (w.extractLsb' 0 7)) ∧
  ∀ (s : State) (pos : DigitPosition) (pat : Pattern), ∃ t, exec (.setdig pos pat) s = .next t ∧
    (∀ k, (t.segRow pos).getLsbD k = pat.getLsbD k) ∧
    (∀ d, d ≠ pos → t.segRow d = s.segRow d) ∧ (∀ d, t.point d = s.point d) ∧
    EngineKept s t ∧ SequencerKept s t ∧ ErrorsKept s t ∧ ModelKept s t

/-- R123: SETPT writes the point of its digit and nothing else, and changes nothing where the point is v
already; with v = 1 and then v = 0 at one digit every point but that digit's is as before and that one
is 0. -/
def Obligations.SetptWritesItsPoint : Prop :=
  (∀ w : CmdWord, opcodeOf w = 0x3#4 → decodeCmd w = .setpt (posOf w) (valueOf w)) ∧
  (∀ (s : State) (pos : DigitPosition) (v : Bool), ∃ t, exec (.setpt pos v) s = .next t ∧
    t.point pos = v ∧ (∀ d, d ≠ pos → t.point d = s.point d) ∧
    (∀ d, t.segRow d = s.segRow d) ∧
    EngineKept s t ∧ SequencerKept s t ∧ ErrorsKept s t ∧ ModelKept s t) ∧
  (∀ (s : State) (pos : DigitPosition) (v : Bool), s.point pos = v →
    exec (.setpt pos v) s = .next s) ∧
  (∀ (s t u : State) (pos : DigitPosition), exec (.setpt pos true) s = .next t →
    exec (.setpt pos false) t = .next u →
    u.point pos = false ∧ ∀ d, d ≠ pos → u.point d = s.point d)

/-- R124: SETSTR's first edge writes row 0 with the pattern of its first code and sets the sequencer
going: WR_CHARS takes DATA, WR_IDX is 1, BUSY is 1; the other rows, the points and every other register
stay; and no command is accepted while BUSY = 1. -/
def Obligations.SetstrWritesRowZeroAndStartsTheSequencer : Prop :=
  (∀ w : CmdWord, opcodeOf w = 0x4#4 → ∃ c0 c1 c2 c3, decodeCmd w = .setstr c0 c1 c2 c3 ∧
    packChars c0 c1 c2 c3 = dataOf w) ∧
  (∀ (s : State) (c : Instr), s.busy = true → ¬ s.AcceptsCommand c) ∧
  ∀ (s : State) (c0 c1 c2 c3 : CharCode), ∃ t, exec (.setstr c0 c1 c2 c3) s = .next t ∧
    t.segRow 0 = enc s.cfg.glyph c0 ∧ (∀ d, d ≠ 0 → t.segRow d = s.segRow d) ∧
    (∀ d, t.point d = s.point d) ∧
    t.wrChars = c0 ++ c1 ++ c2 ++ c3 ∧ t.wrIdx = 1 ∧ t.busy = true ∧
    EngineKept s t ∧ ErrorsKept s t ∧ ModelKept s t

/-- R149: START sets RUN; from IDLE it also enters DIG_ON at digit 0; it changes nothing else, the buffer
and SCAN_COUNT among what it leaves. Accepted in IDLE it gives DIG_ON, digit 0, RUN 1 with digit 0's
line on; accepted in the last cycle of a stopping pass it makes the engine go on to digit 0. -/
def Obligations.StartRunsTheEngine : Prop :=
  (∀ w : CmdWord, opcodeOf w = 0x5#4 → decodeCmd w = .start) ∧
  (∀ s : State, ∃ t, exec .start s = .next t ∧ t.run = true ∧
    t.phase = (if s.phase = .idle then .digOn else s.phase) ∧
    t.dig = (if s.phase = .idle then 0 else s.dig) ∧
    t.dwellCnt = s.dwellCnt ∧ t.latch = s.latch ∧ t.scanCount = s.scanCount ∧
    BufferKept s t ∧ SequencerKept s t ∧ ErrorsKept s t ∧ ModelKept s t) ∧
  (∀ s : State, s.resetSeen = true → s.AcceptsCommand .start → s.phase = .idle →
    ∃ t, step s = .next t ∧ t.phase = .digOn ∧ t.dig = 0 ∧ t.run = true ∧ t.digOn 0 = true) ∧
  (∀ s : State, s.resetSeen = true → s.AcceptsCommand .start → s.phase = .digOff → s.dig = 3 →
    ∃ t, step s = .next t ∧ t.phase = .digOn ∧ t.dig = 0 ∧ t.run = true)

/-- What STOP does at its edge (43_refresh_engine.md section 4): RUN is cleared and nothing else is changed, and
in IDLE, where RUN is 0, it changes nothing. -/
def Obligations.StopClearsRun : Prop :=
  (∀ w : CmdWord, opcodeOf w = 0x6#4 → decodeCmd w = .stop) ∧
  (∀ s : State, ∃ t, exec .stop s = .next t ∧ t.run = false ∧
    t.phase = s.phase ∧ t.dig = s.dig ∧ t.dwellCnt = s.dwellCnt ∧ t.latch = s.latch ∧
    t.scanCount = s.scanCount ∧
    BufferKept s t ∧ SequencerKept s t ∧ ErrorsKept s t ∧ ModelKept s t) ∧
  (∀ s : State, s.run = false → exec .stop s = .next s)

/-- R151: TEARDOWN puts the engine in IDLE at digit 0 with RUN, DWELL_CNT and LATCH 0 and leaves the
buffer, SCAN_COUNT, the sequencer and the error flags alone; accepted in any phase it leaves every line
off in the next cycle; in the last cycle of a pass SCAN_COUNT still counts that pass; a second one
changes nothing; and it is not accepted while BUSY = 1. -/
def Obligations.TeardownStopsAtOnce : Prop :=
  (∀ w : CmdWord, opcodeOf w = 0x7#4 → decodeCmd w = .teardown) ∧
  (∀ s : State, ∃ t, exec .teardown s = .next t ∧
    t.phase = .idle ∧ t.run = false ∧ t.dig = 0 ∧ t.dwellCnt = 0 ∧ t.latch = 0#8 ∧
    t.scanCount = s.scanCount ∧ exec .teardown t = .next t ∧
    BufferKept s t ∧ SequencerKept s t ∧ ErrorsKept s t ∧ ModelKept s t) ∧
  (∀ s : State, s.resetSeen = true → s.AcceptsCommand .teardown →
    ∃ t, step s = .next t ∧ t.phase = .idle ∧ t.run = false ∧ t.dig = 0 ∧ t.dwellCnt = 0 ∧
      t.latch = 0#8 ∧ t.LinesOff ∧ BufferKept s t ∧ t.errIllegal = s.errIllegal ∧
      t.scanCount =
        if s.phase = .digOff ∧ s.dig = 3 then s.scanCount + 1#16 else s.scanCount) ∧
  (∀ s : State, s.busy = true → ¬ s.AcceptsCommand .teardown)

/-- R77 and R181: a reserved opcode sets ERR_ILLEGAL and changes nothing else, and the step is otherwise
what it is with no command presented. -/
def Obligations.ReservedOpcodeOnlySetsErrIllegal : Prop :=
  (∀ w : CmdWord, 0x8#4 ≤ opcodeOf w → decodeCmd w = .reserved (opcodeOf w)) ∧
  (∀ (s : State) (op : BitVec 4), ∃ t, exec (.reserved op) s = .next t ∧ t.errIllegal = true ∧
    t.errFsm = s.errFsm ∧ BufferKept s t ∧ EngineKept s t ∧ SequencerKept s t ∧ ModelKept s t) ∧
  (∀ s : State, s.resetSeen = true → s.accepts = true → 0x8#4 ≤ opcodeOf s.presented.cmd →
    ∃ u, step s.withoutCommand = .next u ∧ step s = .next { u with errIllegal := true })

/-- R105: the ENCODE port shows ENC of enc_char in the same cycle, whatever the state; a lookup changes no
register and is answered in every state; and the corner codes. The port does not interact with the command
port: another code on enc_char changes neither cmd_ready nor which command is accepted, and every register
after the step is the same. -/
def Obligations.EncodePortShowsTheRom : Prop :=
  (∀ s : State, s.outputs.encPat = enc s.cfg.glyph s.presented.encChar) ∧
  (∀ (s : State) (c : CharCode), ∃ t, exec (.encode c) s = .next t ∧ RegistersKept s t ∧
    t.cfg = s.cfg ∧ t.host = s.host ∧ t.resetSeen = s.resetSeen) ∧
  (∀ g : Glyphs, enc g 0x00#8 = 0#7 ∧ enc g 0xFF#8 = 0#7 ∧ enc g 0x20#8 = 0#7 ∧
    enc g 0x38#8 = 0x7F#7 ∧
    ∀ c : CharCode, 0x61 ≤ c.toNat → c.toNat ≤ 0x66 → enc g c = enc g (c - 0x20#8)) ∧
  (∀ (s : State) (c : CharCode),
    (s.present { s.presented with encChar := c }).cmdReady = s.cmdReady ∧
    (∀ i, (s.present { s.presented with encChar := c }).AcceptsCommand i ↔ s.AcceptsCommand i) ∧
    ∀ t, step s = .next t →
      ∃ u, step (s.present { s.presented with encChar := c }) = .next u ∧ RegistersKept t u ∧
        u.cfg = t.cfg ∧ u.host = t.host ∧ u.resetSeen = t.resetSeen)

/-- The model's own record of the ENCODE port (log 3): a lookup leaves ENC of its code in `encPat`, and
after every step `encPat` is what the port showed in the cycle just ended. -/
def Obligations.LookupIsRecorded : Prop :=
  (∀ (s : State) (c : CharCode), exec (.encode c) s = .next { s with encPat := enc s.cfg.glyph c }) ∧
  (∀ s t : State, step s = .next t → t.encPat = s.outputs.encPat)

/-! ## The segment encoder ROM (41_encoder_rom.md) -/

/-- R101 to R104, R107: the three fixed entries; the fifteen configurable ones; lower-case letters as
their upper-case twins; and blank for every code that is none of the alphabet's after normalisation. -/
def Obligations.EncoderFollowsTheAlphabet : Prop :=
  ∀ g : Glyphs,
    (enc g 0x20#8 = 0x00#7 ∧ enc g 0x31#8 = 0x06#7 ∧ enc g 0x38#8 = 0x7F#7) ∧
    (enc g 0x2D#8 = g.dash ∧ enc g 0x30#8 = g.n0 ∧ enc g 0x32#8 = g.n2 ∧ enc g 0x33#8 = g.n3 ∧
      enc g 0x34#8 = g.n4 ∧ enc g 0x35#8 = g.n5 ∧ enc g 0x36#8 = g.n6 ∧ enc g 0x37#8 = g.n7 ∧
      enc g 0x39#8 = g.n9 ∧ enc g 0x41#8 = g.a ∧ enc g 0x42#8 = g.b ∧ enc g 0x43#8 = g.c ∧
      enc g 0x44#8 = g.d ∧ enc g 0x45#8 = g.e ∧ enc g 0x46#8 = g.f) ∧
    (∀ c : CharCode, 0x61 ≤ c.toNat → c.toNat ≤ 0x7A → enc g c = enc g (c - 0x20#8)) ∧
    (∀ c : CharCode, c.toNat ≠ 0x20 → c.toNat ≠ 0x2D → ¬ (0x30 ≤ c.toNat ∧ c.toNat ≤ 0x39) →
      ¬ (0x41 ≤ c.toNat ∧ c.toNat ≤ 0x46) → ¬ (0x61 ≤ c.toNat ∧ c.toNat ≤ 0x66) →
      enc g c = 0#7)

/-- R109, for the default GLYPH (log 16): 23 codes have a pattern other than blank, and the 17 characters
of the alphabet other than the space have 17 different ones. -/
def Obligations.StandardRomIsInjectiveUpToCase : Prop :=
  ((List.range 256).filter fun n => enc standardGlyphs (BitVec.ofNat 8 n) ≠ 0#7).length = 23 ∧
  (([0x2D, 0x30, 0x31, 0x32, 0x33, 0x34, 0x35, 0x36, 0x37, 0x38, 0x39, 0x41, 0x42, 0x43, 0x44, 0x45,
      0x46] : List CharCode).map (enc standardGlyphs)).Nodup

/-- R24: nothing the block does changes what the ROM holds. -/
def Obligations.RomIsNeverWritten : Prop :=
  (∀ s t : State, step s = .next t →
    t.cfg = s.cfg ∧ ∀ c, enc t.cfg.glyph c = enc s.cfg.glyph c) ∧
  (∀ (i : Instr) (s t : State), exec i s = .next t → t.cfg = s.cfg)

/-! ## The write sequencer (42_buffer_commands.md R125, R127) -/

/-- R125: at every edge with rst = 0 and BUSY = 1 the sequencer writes the row WR_IDX from its character
and moves on, ending after row 3, and WR_CHARS keeps its value; so a SETSTR accepted in one cycle
has, after `j` edges, written rows 0 to j - 1 and no other row and no point; BUSY is 1 in the three
cycles after it and 0 in the fourth, whatever else the host presents meanwhile but a reset. Where BUSY is
1 and WR_IDX is 0, which no run reaches (IndicesAndCounterStayInRange), the first clause says what log 8
(DEDUCED) takes from R125's words, which speak of WR_IDX 1, 2 or 3: row 0 is written. -/
def Obligations.SetstrWritesOneRowAnEdge : Prop :=
  (∀ s : State, s.resetSeen = true → s.presented.rst = false → s.busy = true →
    ∃ t, step s = .next t ∧
      t.segRow s.wrIdx = enc s.cfg.glyph (charAt s.wrChars s.wrIdx) ∧
      (∀ d, d ≠ s.wrIdx → t.segRow d = s.segRow d) ∧ (∀ d, t.point d = s.point d) ∧
      t.busy = decide (s.wrIdx ≠ 3) ∧ t.wrIdx = (if s.wrIdx = 3 then 0 else s.wrIdx + 1) ∧
      t.wrChars = s.wrChars) ∧
  (∀ (s : State) (c : DigitPosition → CharCode), s.resetSeen = true →
    s.AcceptsCommand (.setstr (c 0) (c 1) (c 2) (c 3)) →
    (∀ i ∈ s.host.take 4, i.rst = false) →
    ∀ j, 1 ≤ j → j ≤ 4 → ∃ t, Reaches j s t ∧
      (∀ d, t.segRow d = if d.val < j then enc s.cfg.glyph (c d) else s.segRow d) ∧
      (∀ d, t.point d = s.point d) ∧
      t.busy = decide (j < 4) ∧ t.wrIdx.val = j % 4 ∧
      t.wrChars = packChars (c 0) (c 1) (c 2) (c 3))

/-- The spec's own inference R127 ("[derived: from rules R122, R124, R125]"): a SETSTR leaves the same buffer,
edge for edge, as four SETDIG of its four patterns in four consecutive cycles, and the engine goes the
same way under both. -/
def Obligations.SetstrEqualsFourSetdig : Prop :=
  ∀ (s s' : State) (c : DigitPosition → CharCode) (j : Nat),
    s.resetSeen = true → s.AcceptsCommand (.setstr (c 0) (c 1) (c 2) (c 3)) →
    (∀ i ∈ s.host.take 4, i.rst = false) →
    s' = { s with host := s'.host } → 4 ≤ s'.host.length →
    (∀ d : DigitPosition, ∀ i, s'.host[d.val]? = some i →
      i.rst = false ∧ i.Calls (.setdig d (enc s.cfg.glyph (c d)))) →
    j ≤ 4 →
    ∃ t t', Reaches j s t ∧ Reaches j s' t' ∧ BufferKept t t' ∧ EngineKept t t'

/-- R126: the readback port shows the row and the point at rd_pos of the state of the same cycle. -/
def Obligations.ReadbackShowsTheBuffer : Prop :=
  (∀ s : State, s.outputs.rdSeg = s.segRow s.presented.rdPos ∧
    s.outputs.rdPt = s.point s.presented.rdPos) ∧
  (∀ (s : State) (pos : DigitPosition),
    step (s.present { s.presented with rdPos := pos }) = step s)

/-- The spec's own inference R56 ("[derived: from rules R121 to R126, R105]"): applying a CLEAR, a SETDIG or a SETPT
twice leaves the same buffer as applying it once. -/
def Obligations.BufferWritesAreIdempotent : Prop :=
  ∀ (i : Instr) (s t u : State),
    (i = .clear ∨ (∃ pos pat, i = .setdig pos pat) ∨ ∃ pos v, i = .setpt pos v) →
    exec i s = .next t → exec i t = .next u → BufferKept t u

/-- R22: the buffer is written by an accepted CLEAR, SETDIG, SETPT or SETSTR, by the write sequencer and
by reset, and by nothing else. -/
def Obligations.NothingElseWritesTheBuffer : Prop :=
  ∀ s t : State, step s = .next t → s.presented.rst = false → s.busy = false →
    ¬ s.AcceptsBufferWrite → BufferKept s t

/-! ## The refresh engine's phases (43_refresh_engine.md section 2) -/

/-- R142: in DIG_ON the latch takes the row and the point of the digit as they were before the edge, the
counter takes DWELL_CYCLES - 1 and the phase is SEG_ON; the digit stays; and in every other phase the
engine's edge does not read the buffer. -/
def Obligations.DigOnLoadsTheLatch : Prop :=
  (∀ s : State, s.resetSeen = true → s.presented.rst = false → s.NoEngineCommand →
    s.phase = .digOn →
    ∃ t, step s = .next t ∧ t.phase = .segOn ∧
      (∀ k, k < 7 → t.latch.getLsbD k = (s.segRow s.dig).getLsbD k) ∧
      t.latch.getLsbD 7 = s.point s.dig ∧
      t.dwellCnt = s.cfg.dwellCycles - 1 ∧
      t.dig = s.dig ∧ t.run = s.run ∧ t.scanCount = s.scanCount ∧ t.errFsm = s.errFsm) ∧
  (∀ (s : State) (seg : PerDigit Pattern) (pt : PerDigit Bool), s.phase ≠ .digOn →
    engineEdge { s with seg := seg, pt := pt } = { engineEdge s with seg := seg, pt := pt })

/-- R143: in SEG_ON with DWELL_CNT 0 the phase is SEG_OFF next and the latch 0; with any other count the
count goes down by 1 and the latch stays; so the engine stays in SEG_ON for as many further cycles as
the count says, never below 0, and from the count DIG_ON loads that is DWELL_CYCLES cycles. -/
def Obligations.SegOnHoldsForTheDwell : Prop :=
  (∀ s : State, s.resetSeen = true → s.presented.rst = false → s.NoEngineCommand →
    s.phase = .segOn →
    ∃ t, step s = .next t ∧ t.dig = s.dig ∧ t.run = s.run ∧ t.scanCount = s.scanCount ∧
      t.errFsm = s.errFsm ∧
      if s.dwellCnt = 0 then t.phase = .segOff ∧ t.latch = 0#8 ∧ t.dwellCnt = 0
      else t.phase = .segOn ∧ t.latch = s.latch ∧ t.dwellCnt = s.dwellCnt - 1) ∧
  (∀ s : State, s.resetSeen = true → s.phase = .segOn →
    (∀ i ∈ s.host.take (s.dwellCnt + 1), i.Uncut) →
    (∀ j, j ≤ s.dwellCnt → ∃ t, Reaches j s t ∧ t.phase = .segOn ∧ t.dig = s.dig ∧
      t.latch = s.latch ∧ t.dwellCnt = s.dwellCnt - j) ∧
    ∃ t, Reaches (s.dwellCnt + 1) s t ∧ t.phase = .segOff) ∧
  (∀ s : State, s.resetSeen = true → s.phase = .digOn →
    (∀ i ∈ s.host.take (s.cfg.dwellCycles + 1), i.Uncut) →
    (∀ j, 1 ≤ j → j ≤ s.cfg.dwellCycles → ∃ t, Reaches j s t ∧ t.phase = .segOn) ∧
    ∃ t, Reaches (s.cfg.dwellCycles + 1) s t ∧ t.phase = .segOff)

/-- R144: in SEG_OFF every segment line is off and the digit's select line is still on, and after one
cycle the phase is DIG_OFF, with the digit kept. -/
def Obligations.SegOffLastsOneCycle : Prop :=
  (∀ s : State, s.phase = .segOff → (∀ j, s.segOn j = false) ∧ s.digOn s.dig = true) ∧
  (∀ s : State, s.resetSeen = true → s.presented.rst = false → s.NoEngineCommand →
    s.phase = .segOff →
    ∃ t, step s = .next t ∧ t.phase = .digOff ∧ t.dig = s.dig ∧ t.dwellCnt = s.dwellCnt ∧
      t.latch = s.latch ∧ t.run = s.run ∧ t.scanCount = s.scanCount ∧ t.errFsm = s.errFsm)

/-- R145: in DIG_OFF every line is off, and after one cycle the engine is in DIG_ON at the next digit, or
at the end of the pass at digit 0 with SCAN_COUNT one more modulo 2^16, in DIG_ON if RUN was 1 and in
IDLE if it was 0; and the engine's edge reads RUN nowhere else. -/
def Obligations.DigOffGoesOnOrEndsThePass : Prop :=
  (∀ s : State, s.phase = .digOff → s.LinesOff) ∧
  (∀ s : State, s.resetSeen = true → s.presented.rst = false → s.NoEngineCommand →
    s.phase = .digOff →
    ∃ t, step s = .next t ∧ t.dwellCnt = s.dwellCnt ∧ t.latch = s.latch ∧ t.run = s.run ∧
      t.errFsm = s.errFsm ∧
      if s.dig.val < 3 then
        t.phase = .digOn ∧ t.dig.val = s.dig.val + 1 ∧ t.scanCount = s.scanCount
      else
        t.dig = 0 ∧ t.scanCount.toNat = (s.scanCount.toNat + 1) % 2 ^ 16 ∧
        t.phase = if s.run then .digOn else .idle) ∧
  (∀ (s : State) (r : Bool), ¬ (s.phase = .digOff ∧ s.dig = 3) →
    (∀ k, s.phase ≠ .unreachable k) →
    engineEdge { s with run := r } = { engineEdge s with run := r })

/-- R148: in IDLE every line is off, the engine writes nothing, and IDLE is left only by START. -/
def Obligations.IdleIsLeftOnlyByStart : Prop :=
  (∀ s : State, s.phase = .idle → s.LinesOff) ∧
  (∀ s : State, s.phase = .idle → engineEdge s = s) ∧
  (∀ s t : State, s.phase = .idle → step s = .next t →
    (t.phase = .idle ↔ ¬ s.AcceptsCommand .start))

/-- R147 and R182: an unreachable PHASE goes to IDLE at digit 0 with DWELL_CNT, LATCH and RUN 0 and
ERR_FSM set, and every line is off while PHASE holds it and after. -/
def Obligations.UnreachablePhaseRecovers : Prop :=
  (∀ (s : State) (k : Fin 3), s.phase = .unreachable k → s.LinesOff) ∧
  (∀ (s : State) (k : Fin 3), s.resetSeen = true → s.presented.rst = false →
    s.NoEngineCommand → s.phase = .unreachable k →
    ∃ t, step s = .next t ∧ t.phase = .idle ∧ t.dig = 0 ∧ t.dwellCnt = 0 ∧ t.latch = 0#8 ∧
      t.run = false ∧ t.errFsm = true ∧ t.scanCount = s.scanCount ∧ t.LinesOff)

/-! ## Schedules (43_refresh_engine.md section 3, 20_memory.md section 6) -/

/-- The spec's own inference R146 ("[derived: from rules R142 to R145]"): with P = DWELL_CYCLES + 3, a digit entered in
DIG_ON runs through its table of phases and lines, when no TEARDOWN or reset intervenes. -/
def Obligations.DigitFollowsItsSchedule : Prop :=
  ∀ s : State, s.resetSeen = true → s.phase = .digOn →
    (∀ i ∈ s.host.take s.cfg.digitCycles, i.Uncut) →
    ∀ k, k ≤ s.cfg.digitCycles → ∃ t, Reaches k s t ∧
      (k = 0 → t.phase = .digOn ∧ t.digOn s.dig = true ∧ ∀ j, t.segOn j = false) ∧
      (1 ≤ k ∧ k ≤ s.cfg.dwellCycles → t.phase = .segOn ∧ t.digOn s.dig = true ∧
        ∀ j : SegmentLine, t.segOn j = (s.lineRow s.dig).getLsbD j.val) ∧
      (k = s.cfg.dwellCycles + 1 → t.phase = .segOff ∧ t.digOn s.dig = true ∧
        ∀ j, t.segOn j = false) ∧
      (k = s.cfg.dwellCycles + 2 → t.phase = .digOff ∧ t.LinesOff) ∧
      (k = s.cfg.dwellCycles + 3 →
        if s.dig.val < 3 then t.phase = .digOn ∧ t.dig.val = s.dig.val + 1
        else t.dig = 0 ∧ (t.phase = .digOn ∨ t.phase = .idle))

/-- The spec's own inferences R146 and R153 ("[derived: from rules R142 to R145]"): a scan pass lasts exactly 4 x P
cycles and visits the digits 0, 1, 2, 3 in that order, each once, whatever commands but TEARDOWN
the host presents; it counts once in SCAN_COUNT; and with no START or STOP in it the engine goes on
exactly if RUN was 1. -/
def Obligations.ScanPassVisitsEachDigitOnce : Prop :=
  ∀ s : State, s.resetSeen = true → s.phase = .digOn → s.dig = 0 →
    (∀ i ∈ s.host.take (4 * (s.cfg.dwellCycles + 3)), i.Uncut) →
    (∀ k, k < 4 * (s.cfg.dwellCycles + 3) → ∃ t, Reaches k s t ∧
      t.dig.val = k / (s.cfg.dwellCycles + 3) ∧
      (t.phase = .digOn ↔ k % (s.cfg.dwellCycles + 3) = 0) ∧ t.phase ≠ .idle) ∧
    ∃ t, Reaches (4 * (s.cfg.dwellCycles + 3)) s t ∧
      t.dig = 0 ∧ t.scanCount = s.scanCount + 1#16 ∧ (t.phase = .digOn ∨ t.phase = .idle) ∧
      ((∀ i ∈ s.host.take (4 * (s.cfg.dwellCycles + 3)), ¬ i.Calls .start ∧ ¬ i.Calls .stop) →
        t.run = s.run ∧ t.phase = if s.run then .digOn else .idle)

/-- The spec's own inference R152 ("[derived: from rules R140, R141, R146]"): at most one digit-select line is on; a
segment line is on only in SEG_ON, when exactly one digit-select line is on; and after the last lit
cycle of a digit come two cycles with every segment line off, the second with every digit-select line
off too, and a third with no segment lit, when no TEARDOWN or reset intervenes (log 11). -/
def Obligations.DigitsDoNotBleed : Prop :=
  (∀ (s : State) (i k : DigitPosition), s.digOn i = true → s.digOn k = true → i = k) ∧
  (∀ (s : State) (j : SegmentLine), s.segOn j = true →
    s.phase = .segOn ∧ ∃ i, s.digOn i = true ∧ ∀ k, s.digOn k = true → k = i) ∧
  (∀ s : State, s.resetSeen = true → s.phase = .segOn → s.dwellCnt = 0 →
    (∀ i ∈ s.host.take 3, i.Uncut) →
    ∃ t1 t2 t3, Reaches 1 s t1 ∧ Reaches 2 s t2 ∧ Reaches 3 s t3 ∧
      (∀ j, t1.segOn j = false) ∧ (∀ i, t1.digOn i = decide (i = s.dig)) ∧
      t2.LinesOff ∧ (∀ j, t3.segOn j = false))

/-- The spec's own inferences R61 and R211 ("[derived: from rules R59, R60, R146]", "[derived: from rules R59 to R61,
R146]"), for a write accepted in cycle n while the engine runs with no STOP, TEARDOWN or reset: it is in
the latch and on the lines in the cycle after the first latch load of its digit at an edge from n + 1
on, in a cycle from n + 2 to n + 4 x P + 1, unless a later command overwrites it before that load
(log 12). So for a SETDIG's row, a SETPT's point, a CLEAR's four digits, and a SETSTR's four rows, where
row d is written at edge n + d and the bound for the whole string is n + 3 + 4 x P + 1. The premise `Inv`
is kept by every step (RegisterInvariantIsKept). -/
def Obligations.WriteIsSeenWithinOnePass : Prop :=
  ∀ (s : State) (d : DigitPosition), s.resetSeen = true → s.Inv → s.run = true →
    (∀ i ∈ s.host.take (4 * s.cfg.digitCycles + 1), i.RunsOn) →
    (∀ p, s.AcceptsCommand (.setdig d p) →
      SeenAtNextLoad s d 0 1 (writesRow d) fun t =>
        ∀ j : SegmentLine, j.val < 7 → t.segOn j = p.getLsbD j.val) ∧
    (∀ v, s.AcceptsCommand (.setpt d v) →
      SeenAtNextLoad s d 0 1 (writesPoint d) fun t => t.segOn 7 = v) ∧
    (s.AcceptsCommand .clear →
      SeenAtNextLoad s d 0 1 (fun c => writesRow d c || writesPoint d c) fun t =>
        ∀ j, t.segOn j = false) ∧
    (∀ c : DigitPosition → CharCode, s.AcceptsCommand (.setstr (c 0) (c 1) (c 2) (c 3)) →
      (∀ i ∈ s.host.take (d.val + 4 * s.cfg.digitCycles + 1), i.RunsOn) →
      SeenAtNextLoad s d d.val 4 (writesRow d) fun t =>
        ∀ j : SegmentLine, j.val < 7 → t.segOn j = (enc s.cfg.glyph (c d)).getLsbD j.val)

/-- R150: STOP clears RUN and changes nothing else at its edge; the engine then finishes the pass in
progress, entering IDLE at the first end-of-pass edge after the cycle of the STOP and not before, and is
in IDLE in cycle n + 4 x P + 1 at the latest, with every line off, for a STOP accepted in cycle n and no
START after it; accepted in the last cycle of a pass with RUN = 1 it lets one more
pass begin; in IDLE it changes nothing. The premise `Inv` is kept by every step
(RegisterInvariantIsKept). -/
def Obligations.StopHaltsWithinOnePass : Prop :=
  (∀ w : CmdWord, opcodeOf w = 0x6#4 → decodeCmd w = .stop) ∧
  (∀ s : State, ∃ t, exec .stop s = .next t ∧ t.run = false ∧ { t with run := s.run } = s) ∧
  (∀ s : State, s.resetSeen = true → s.AcceptsCommand .stop → s.phase = .digOff → s.dig = 3 →
    s.run = true → ∃ t, step s = .next t ∧ t.phase = .digOn ∧ t.dig = 0 ∧ t.run = false) ∧
  (∀ s : State, s.resetSeen = true → s.Inv → s.AcceptsCommand .stop → s.phase = .idle →
    ∃ t, step s = .next t ∧ RegistersKept s t) ∧
  (∀ (n : Nat) (s u : State), s.resetSeen = true → s.Inv → s.AcceptsCommand .stop →
    (∀ i ∈ s.host.take (n + 1), i.Uncut) → (∀ i ∈ s.host.tail.take n, ¬ i.Calls .start) →
    1 ≤ n → Reaches n s u → u.phase ≠ .idle →
    ∃ t, step u = .next t ∧ (t.phase = .idle ↔ u.phase = .digOff ∧ u.dig = 3)) ∧
  (∀ s : State, s.resetSeen = true → s.Inv → s.AcceptsCommand .stop →
    (∀ i ∈ s.host.tail.take (4 * s.cfg.digitCycles), ¬ i.Calls .start) →
    ∃ t, Reaches (4 * s.cfg.digitCycles + 1) s t ∧ t.phase = .idle ∧ t.LinesOff)

/-- The spec's own inference R161 ("[derived: from rule R160]"): the same-edge cases, row by row. -/
def Obligations.SameEdgeCasesComposeAsListed : Prop :=
  ∀ s : State, s.resetSeen = true →
    (∀ p, s.phase = .digOn → s.AcceptsCommand (.setdig s.dig p) →
      ∃ t, step s = .next t ∧ t.latch = s.lineRow s.dig ∧ t.segRow s.dig = p) ∧
    (s.phase = .digOff → s.dig = 3 → s.run = true → s.AcceptsCommand .stop →
      ∃ t, step s = .next t ∧ t.phase = .digOn ∧ t.dig = 0 ∧ t.run = false) ∧
    (s.phase = .digOff → s.dig = 3 → s.run = false → s.AcceptsCommand .start →
      ∃ t, step s = .next t ∧ t.phase = .digOn ∧ t.dig = 0 ∧ t.run = true) ∧
    (s.phase = .digOff → s.dig = 3 → s.AcceptsCommand .teardown →
      ∃ t, step s = .next t ∧ t.phase = .idle ∧ t.scanCount = s.scanCount + 1#16) ∧
    (s.Inv → s.phase = .idle → s.AcceptsCommand .stop →
      ∃ t, step s = .next t ∧ RegistersKept s t) ∧
    (s.Inv → s.phase = .idle → s.dig = 0 → s.AcceptsCommand .teardown →
      ∃ t, step s = .next t ∧ RegistersKept s t) ∧
    (s.Inv → s.phase ≠ .idle → ¬ (s.phase = .digOff ∧ s.dig = 3 ∧ s.run = false) →
      s.AcceptsCommand .start →
      ∃ u, step s.withoutCommand = .next u ∧ step s = .next { u with run := true })

/-! ## Invariants and whole-machine rules -/

/-- The spec's own inference R35 ("[derived: from rules R142 to R151, R37]"): every step from a state that meets its
clauses (a) to (f) leads to one that does. -/
def Obligations.RegisterInvariantIsKept : Prop :=
  ∀ s t : State, s.Inv → step s = .next t → t.Inv

/-- R35 holds right after reset, and in the state any reset leads to. -/
def Obligations.RegisterInvariantHoldsAfterReset : Prop :=
  State.reset.Inv ∧ ∀ s t : State, s.presented.rst = true → step s = .next t → t.Inv

/-- In every step the sequencer is busy exactly when WR_IDX is not 0 (R31 and R125: "1, 2 or 3" while busy), IDLE is at
digit 0 (R145, R147, R151), and DWELL_CNT fits the DW bits R27 gives it. -/
def Obligations.IndicesAndCounterStayInRange : Prop :=
  (∀ s t : State, (s.busy = true ↔ s.wrIdx ≠ 0) → step s = .next t →
    (t.busy = true ↔ t.wrIdx ≠ 0)) ∧
  (∀ s t : State, (s.phase = .idle → s.dig = 0) → step s = .next t → t.phase = .idle → t.dig = 0) ∧
  (∀ s t : State, s.dwellCnt < 2 ^ s.cfg.dw → step s = .next t → t.dwellCnt < 2 ^ t.cfg.dw)

/-- R32: ERR_ILLEGAL is set by an accepted reserved opcode, ERR_FSM by an unreachable PHASE; both stay
set, and only reset clears them. -/
def Obligations.ErrorFlagsAreSticky : Prop :=
  ∀ s t : State, step s = .next t →
    (s.presented.rst = true → t.errIllegal = false ∧ t.errFsm = false) ∧
    (s.presented.rst = false →
      (t.errIllegal = true ↔
        s.errIllegal = true ∨ (s.accepts = true ∧ 0x8#4 ≤ opcodeOf s.presented.cmd)) ∧
      (t.errFsm = true ↔ s.errFsm = true ∨ ∃ k, s.phase = .unreachable k))

/-- R30: SCAN_COUNT goes up by 1 modulo 2^16 at the end of a pass and is written by nothing else but
reset, whatever the command. -/
def Obligations.ScanCountCountsPassesOnly : Prop :=
  ∀ s t : State, step s = .next t →
    t.scanCount =
      if s.presented.rst then 0#16
      else if s.phase = .digOff ∧ s.dig = 3 then BitVec.ofNat 16 (s.scanCount.toNat + 1)
      else s.scanCount

/-- The spec's own inference R185 ("[derived: from rules R145, R147, R150, R151]"): the engine comes to IDLE only by
reset, TEARDOWN, an unreachable PHASE, or the end of a pass with RUN = 0, and every line is off then. -/
def Obligations.EngineStopsOnlyInListedWays : Prop :=
  ∀ s t : State, s.phase ≠ .idle → step s = .next t → t.phase = .idle →
    (s.presented.rst = true ∨ s.AcceptsCommand .teardown ∨ (∃ k, s.phase = .unreachable k) ∨
      (s.phase = .digOff ∧ s.dig = 3 ∧ s.run = false)) ∧ t.LinesOff

/-- What writes RUN (10_state.md R29, and R147 and R37 besides): reset clears it, START sets it, STOP and TEARDOWN clear
it, an unreachable PHASE clears it where none of these acts, and nothing else changes it. -/
def Obligations.RunFollowsItsCommands : Prop :=
  ∀ s t : State, step s = .next t →
    (s.presented.rst = true → t.run = false) ∧
    (s.presented.rst = false → s.AcceptsCommand .start → t.run = true) ∧
    (s.presented.rst = false → (s.AcceptsCommand .stop ∨ s.AcceptsCommand .teardown) →
      t.run = false) ∧
    (s.presented.rst = false → s.NoEngineCommand → (∃ k, s.phase = .unreachable k) →
      t.run = false) ∧
    (s.presented.rst = false → s.NoEngineCommand → (∀ k, s.phase ≠ .unreachable k) →
      t.run = s.run)

/-- R192: besides the buffer the host acts on the engine only through START, STOP, TEARDOWN and rst: two
states whose engine control registers and parameters agree, under inputs that agree in rst and in
which of the three is accepted, have next states whose engine control registers agree, whatever the
buffers, the sequencers, the other commands and the other inputs are. Where their buffers and latches
(R28) agree too, so do their next latches: what the host writes at an edge reaches no latch at that edge. -/
def Obligations.HostReachesTheEngineOnlyThroughItsCommands : Prop :=
  ∀ s s' : State, s.resetSeen = true → s'.resetSeen = true → SameEngineControl s s' →
    s'.cfg = s.cfg → s'.presented.rst = s.presented.rst →
    (∀ c ∈ [Instr.start, .stop, .teardown], s'.AcceptsCommand c ↔ s.AcceptsCommand c) →
    ∃ t t', step s = .next t ∧ step s' = .next t' ∧ SameEngineControl t t' ∧
      (BufferKept s s' → s'.latch = s.latch → t'.latch = t.latch)

/-! ## Outputs (10_state.md R33, 43_refresh_engine.md section 1) -/

/-- R33: the fields of the status word, PHASE by the numbers of 10_state.md R25 (5 to 7 being the unreachable
ones), and its bits 15:9 always 0. -/
def Obligations.StatusWordHasItsFields : Prop :=
  ∀ s : State,
    s.status.getLsbD 0 = s.run ∧ s.status.extractLsb' 1 3 = s.phase.code ∧
    (s.status.extractLsb' 1 3).toNat =
      (match s.phase with
      | .idle => 0
      | .digOn => 1
      | .segOn => 2
      | .segOff => 3
      | .digOff => 4
      | .unreachable k => 5 + k.val) ∧
    (s.status.extractLsb' 4 2).toNat = s.dig.val ∧ s.status.getLsbD 6 = s.busy ∧
    s.status.getLsbD 7 = s.errIllegal ∧ s.status.getLsbD 8 = s.errFsm ∧
    s.status.extractLsb' 9 7 = 0#7 ∧ s.status.extractLsb' 16 16 = s.scanCount ∧
    s.outputs.status = s.status

/-- R140: bit i of dig_line is the on level exactly when PHASE is DIG_ON, SEG_ON or SEG_OFF and DIG = i;
at most one digit-select line is on. -/
def Obligations.DigitLinesFollowPhaseAndDigit : Prop :=
  (∀ (s : State) (i : DigitPosition),
    s.outputs.digLine.getLsbD i.val =
      if (s.phase = .digOn ∨ s.phase = .segOn ∨ s.phase = .segOff) ∧ s.dig = i
      then s.cfg.digitOnLevel else !s.cfg.digitOnLevel) ∧
  (∀ (s : State) (i k : DigitPosition), s.digOn i = true → s.digOn k = true → i = k)

/-- R141: bit j of seg_line is the on level exactly when PHASE is SEG_ON and bit j of LATCH is 1. -/
def Obligations.SegmentLinesFollowTheLatch : Prop :=
  ∀ (s : State) (j : SegmentLine),
    s.outputs.segLine.getLsbD j.val =
      if s.phase = .segOn ∧ s.latch.getLsbD j.val = true
      then s.cfg.segOnLevel else !s.cfg.segOnLevel

/-! ## Reset, boot and parameters (70_reset_and_hazards.md, 10_state.md R37, 00_scope.md R7) -/

/-- R37 and R200: a cycle with rst = 1 leads to the reset values in every register, whatever the state
was, an unreachable PHASE and the state before the first reset among them, and whatever else is
presented; cmd_ready is 0 in it; every line is off after it. -/
def Obligations.ResetReachesTheResetState : Prop :=
  ∀ s : State, s.presented.rst = true → s.cmdReady = false ∧ ∃ t, step s = .next t ∧
    (∀ d, t.segRow d = 0#7) ∧ (∀ d, t.point d = false) ∧ t.phase = .idle ∧ t.dig = 0 ∧
    t.dwellCnt = 0 ∧ t.latch = 0#8 ∧ t.run = false ∧ t.scanCount = 0#16 ∧ t.busy = false ∧
    t.wrIdx = 0 ∧ t.wrChars = 0#32 ∧ t.errIllegal = false ∧ t.errFsm = false ∧
    t.LinesOff

/-- R37: the machine's reset state holds the reset values, its status word is 0 and its lines are off. -/
def Obligations.ResetStateHoldsTheResetValues : Prop :=
  (∀ d, State.reset.segRow d = 0#7) ∧ (∀ d, State.reset.point d = false) ∧
  State.reset.phase.code = 0#3 ∧ State.reset.dig = 0 ∧ State.reset.dwellCnt = 0 ∧
  State.reset.latch = 0#8 ∧ State.reset.run = false ∧ State.reset.scanCount = 0#16 ∧
  State.reset.busy = false ∧ State.reset.wrIdx = 0 ∧ State.reset.wrChars = 0#32 ∧
  State.reset.errIllegal = false ∧ State.reset.errFsm = false ∧ State.reset.status = 0#32 ∧
  State.reset.LinesOff

/-- R202, as the model has it (log 4): before the first reset a presented command and a read of the
outputs fault; after a cycle with rst = 1, and in every state a step leads to from there, a read answers
the outputs and no step faults. -/
def Obligations.RunsBeforeTheFirstResetFault : Prop :=
  (∀ s : State, s.resetSeen = false → s.presented.rst = false → s.presented.cmdValid = true →
    step s = .fault .commandBeforeReset) ∧
  (∀ s : State, s.resetSeen = false → sampleOutputs s = .fault .readBeforeReset) ∧
  (∀ s : State, s.resetSeen = true → sampleOutputs s = .next s.outputs ∧ ∀ r, step s ≠ .fault r) ∧
  (∀ s t : State, step s = .next t → (t.resetSeen = true ↔ s.presented.rst = true ∨ s.resetSeen = true))

/-- The spec's own inference R204 ("[derived: from rules R150, R151, R200]"), for what acts at once: a reset or an
accepted TEARDOWN leaves every line off from the next cycle, in whatever phase it comes. -/
def Obligations.ShutdownTurnsEveryLineOff : Prop :=
  ∀ s t : State, step s = .next t →
    (s.presented.rst = true ∨ s.AcceptsCommand .teardown) →
    t.LinesOff ∧ (∀ i : DigitPosition, t.digLine.getLsbD i.val = !t.cfg.digitOnLevel) ∧
    ∀ j : SegmentLine, t.segLine.getLsbD j.val = !t.cfg.segOnLevel

/-- R6 and R7: DWELL_CYCLES = 0 and DWELL_CYCLES above 2^DW are refused, and every other value builds a
parameter set with that value, and every parameter set there is has a legal one. -/
def Obligations.IllegalDwellIsRefused : Prop :=
  ∀ (dw n : Nat) (a b : Bool) (f : Nat) (g : Glyphs),
    buildConfig dw 0 a b f g = none ∧
    (2 ^ dw < n → buildConfig dw n a b f g = none) ∧
    (1 ≤ n → n ≤ 2 ^ dw → ∃ c, buildConfig dw n a b f g = some c ∧ c.dwellCycles = n ∧
      c.dw = dw ∧ c.digitOnLevel = a ∧ c.segOnLevel = b ∧ c.fClk = f ∧ c.glyph = g) ∧
    ∀ c : Config, 1 ≤ c.dwellCycles ∧ c.dwellCycles ≤ 2 ^ c.dw

/-! ## The assembler (30_encoding.md R79, R80) -/

/-- R79, its words and its text. Each line's word is its command's, with every field the command does not
use 0; `.word` is any 40-bit word; WAIT presents nothing; an operand out of range is refused. A text line
spelled as R79 says (mnemonics in either case, numbers decimal or `0x` hexadecimal, strings with their
escapes, `;` before a comment) is the line it stands for; one command stands on a line, a program is its
lines one after another, and a line that is refused makes the program be refused. What R79 leaves open
(which characters are blanks, a `;` inside a string as a character of it, hexadecimal digits in either
case, decimal numbers after .word and SETSTR, the refusal of a code, a `.word` or a DATA that does not
fit) is the model's choice, log 13; and so is the cycle a command is presented in, once and right after
the line before it, which the clauses about assemble and assembleText say (DESIGN CHOICE, log 19). -/
def Obligations.AssemblerFollowsItsSyntax : Prop :=
  (AsmBasic.nop.Means .nop ∧ AsmBasic.clear.Means .clear ∧ AsmBasic.start.Means .start ∧
    AsmBasic.stop.Means .stop ∧ AsmBasic.teardown.Means .teardown) ∧
  (∀ (pos pat : Nat) (hp : pos < 4), pat ≤ 0x7F →
    (AsmBasic.setdig pos pat).Means (.setdig ⟨pos, hp⟩ (BitVec.ofNat 7 pat))) ∧
  (∀ (pos v : Nat) (hp : pos < 4), v ≤ 1 →
    (AsmBasic.setpt pos v).Means (.setpt ⟨pos, hp⟩ (v == 1))) ∧
  (∀ c0 c1 c2 c3 : CharCode,
    (AsmBasic.setstr [c0.toNat, c1.toNat, c2.toNat, c3.toNat]).Means (.setstr c0 c1 c2 c3) ∧
    (AsmBasic.setstrData (c0 ++ c1 ++ c2 ++ c3).toNat).Means (.setstr c0 c1 c2 c3)) ∧
  (∀ w : CmdWord, (AsmBasic.word w.toNat).cycles = .ok [some w]) ∧
  (∀ n, (AsmBasic.wait n).cycles = .ok (List.replicate n none)) ∧
  (∀ pos x : Nat, 4 ≤ pos → (AsmBasic.setdig pos x).cycles = .error .positionOutOfRange ∧
    (AsmBasic.setpt pos x).cycles = .error .positionOutOfRange) ∧
  (∀ pos pat : Nat, pos < 4 → 0x7F < pat →
    (AsmBasic.setdig pos pat).cycles = .error .patternOutOfRange) ∧
  (∀ pos v : Nat, pos < 4 → 1 < v →
    (AsmBasic.setpt pos v).cycles = .error .pointValueOutOfRange) ∧
  (∀ codes : List Nat, codes.length ≠ 4 →
    (AsmBasic.setstr codes).cycles = .error .notFourCharacters) ∧
  (∀ codes : List Nat, codes.length = 4 → (∃ c ∈ codes, 256 ≤ c) →
    (AsmBasic.setstr codes).cycles = .error .codeOutOfRange) ∧
  (∀ n, 2 ^ 32 ≤ n → (AsmBasic.setstrData n).cycles = .error .dataOutOfRange) ∧
  (∀ n, 2 ^ 40 ≤ n → (AsmBasic.word n).cycles = .error .wordOutOfRange) ∧
  (∀ l, Spells [] l → parseLine l = .ok []) ∧
  (∀ (l w : List Char) (as : List (List Char)) (ns : List Nat),
    Spells (.word w :: numberTokens as) l → List.Forall₂ Numeral as ns →
    (NamesMnemonic w "NOP" → ns = [] → parseLine l = .ok [.basic .nop]) ∧
    (NamesMnemonic w "CLEAR" → ns = [] → parseLine l = .ok [.basic .clear]) ∧
    (NamesMnemonic w "START" → ns = [] → parseLine l = .ok [.basic .start]) ∧
    (NamesMnemonic w "STOP" → ns = [] → parseLine l = .ok [.basic .stop]) ∧
    (NamesMnemonic w "TEARDOWN" → ns = [] → parseLine l = .ok [.basic .teardown]) ∧
    (NamesMnemonic w "CLRPTS" → ns = [] → parseLine l = .ok [.clrpts]) ∧
    (NamesMnemonic w "SETSTR" → ∀ n, ns = [n] → parseLine l = .ok [.basic (.setstrData n)]) ∧
    (NamesMnemonic w ".WORD" → ∀ n, ns = [n] → parseLine l = .ok [.basic (.word n)]) ∧
    (NamesMnemonic w "WAIT" → ∀ n, ns = [n] → parseLine l = .ok [.basic (.wait n)]) ∧
    (NamesMnemonic w "BLANK" → ∀ n, ns = [n] → parseLine l = .ok [.blank n]) ∧
    (NamesMnemonic w "SETDIG" → ∀ pos pat, ns = [pos, pat] →
      parseLine l = .ok [.basic (.setdig pos pat)]) ∧
    (NamesMnemonic w "SETPT" → ∀ pos v, ns = [pos, v] →
      parseLine l = .ok [.basic (.setpt pos v)]) ∧
    (NamesMnemonic w "SETPTS" → ∀ v0 v1 v2 v3, ns = [v0, v1, v2, v3] →
      parseLine l = .ok [.setpts v0 v1 v2 v3])) ∧
  (∀ (l w : List Char) (codes : List Nat), Spells [.word w, .str codes] l →
    (NamesMnemonic w "SETSTR" → parseLine l = .ok [.basic (.setstr codes)]) ∧
    (NamesMnemonic w "SHOW" → parseLine l = .ok [.show codes])) ∧
  (∀ b ws, AsmBasic.cycles b = .ok ws → assemble [.basic b] = .ok (ws.map Inputs.ofCycle)) ∧
  (∀ b e, AsmBasic.cycles b = .error e → assemble [.basic b] = .error e) ∧
  (∀ l, assembleText [l] =
    match parseLine l with
    | .ok a => assemble a
    | .error e => .error e) ∧
  assembleText [] = .ok [] ∧
  ∀ (l : List Char) (ls : List (List Char)) (zs : List Inputs),
    assembleText (l :: ls) = .ok zs ↔
      ∃ xs ys, assembleText [l] = .ok xs ∧ assembleText ls = .ok ys ∧ zs = xs ++ ys

/-- R80: the expansions of the pseudo-instructions, SHOW being SETSTR and WAIT 3. The last clause is R79's WAIT n, as
`n` cycles of the model's own schedule: that these carry no reset and code and position 0 on the
combinational ports, as every cycle with nothing presented does, is the model's choice (DESIGN CHOICE,
logs 2 and 19). -/
def Obligations.PseudoInstructionsExpand : Prop :=
  (∀ pos, AsmLine.expand (.blank pos) = [.setdig pos 0x00]) ∧
  (∀ v0 v1 v2 v3, AsmLine.expand (.setpts v0 v1 v2 v3) =
    [.setpt 0 v0, .setpt 1 v1, .setpt 2 v2, .setpt 3 v3]) ∧
  AsmLine.expand .clrpts = AsmLine.expand (.setpts 0 0 0 0) ∧
  (∀ codes, AsmLine.expand (.show codes) = [.setstr codes, .wait 3]) ∧
  (∀ n, assemble [.basic (.wait n)] = .ok (List.replicate n Inputs.idle))
end

