-- ==== Sys2Proof/Laws/Assembler.lean ====
section
/-! SUPPORT. What the assembler's scanner and its number reader answer on text spelled as 30_encoding.md R79 says. -/

namespace Sys2Proof.Machine

/-! ## Digits and numbers -/

/-- A hexadecimal digit, in either case, is read as the value its character stands for. -/
theorem hexDigit_of_toLower {c : Char} {d : Nat} (hd : d < 16) (h : c.toLower = Nat.digitChar d) :
    hexDigit c = some d := by
  by_cases hu : c.val ≥ 'A'.val ∧ c.val ≤ 'Z'.val
  · have h1 : 65 ≤ c.toNat := hu.1
    have h2 : c.toNat ≤ 90 := hu.2
    have key : ∀ (n : Fin 26) (d : Fin 16), (Char.ofNat (65 + n.val)).toLower = Nat.digitChar d.val →
        hexDigit (Char.ofNat (65 + n.val)) = some d.val := by decide
    have hc := key ⟨c.toNat - 65, by omega⟩ ⟨d, hd⟩
    rw [show 65 + (c.toNat - 65) = c.toNat by omega, Char.ofNat_toNat] at hc
    exact hc h
  · have hc : c.toLower = c := dif_neg hu
    have key : ∀ d : Fin 16, hexDigit (Nat.digitChar d.val) = some d.val := by decide
    rw [← hc, h]
    exact key ⟨d, hd⟩

/-- Digits are read from the most significant one, on top of what is read already. -/
theorem digitsValue_of_digits {base : Nat} (hb : base ≤ 16) (cs : List Char) (ds : List Nat)
    (hd : ∀ d ∈ ds, d < base) (h : cs.map Char.toLower = ds.map Nat.digitChar) (acc : Nat) :
    digitsValue base acc cs = some (Nat.ofDigits base ds.reverse + base ^ ds.length * acc) := by
  induction ds generalizing cs acc with
  | nil =>
    obtain rfl : cs = [] := by simpa using h
    simp [digitsValue]
  | cons d ds ih =>
    obtain ⟨c, cs, rfl⟩ : ∃ c cs', cs = c :: cs' := by cases cs <;> simp at h ⊢
    simp only [List.map_cons, List.cons.injEq] at h
    have hlt := hd d (by simp)
    simp only [digitsValue, hexDigit_of_toLower (by omega) h.1, if_pos hlt]
    rw [ih cs (fun x hx => hd x (by simp [hx])) h.2]
    simp only [List.reverse_cons, Nat.ofDigits_append, Nat.ofDigits_singleton, List.length_reverse,
      List.length_cons, Nat.pow_succ]
    congr 1
    ring

/-- A decimal digit's character is no capital letter and no `x`. -/
theorem digitChar_decimal {d : Nat} (hd : d < 10) :
    (Nat.digitChar d).toLower = Nat.digitChar d ∧ Nat.digitChar d ≠ 'x' := by
  have key : ∀ d : Fin 10, (Nat.digitChar d.val).toLower = Nat.digitChar d.val ∧
      Nat.digitChar d.val ≠ 'x' := by decide
  exact key ⟨d, hd⟩

/-- A number that does not begin with `0x` is read in base ten. -/
theorem numberOf_decimal {cs : List Char} (hne : cs ≠ []) (hx : ∀ c ∈ cs, c ≠ 'x') :
    numberOf cs = digitsValue 10 0 cs := by
  unfold numberOf
  split <;> simp_all

/-- A number after `0x` is read in base sixteen. -/
theorem numberOf_hex {cs : List Char} (hne : cs ≠ []) :
    numberOf ('0' :: 'x' :: cs) = digitsValue 16 0 cs := by
  unfold numberOf
  split <;> simp_all

/-- A number spelled as R79 says is read as that number. -/
theorem numberOf_numeral {cs : List Char} {n : Nat} (h : Numeral cs n) : numberOf cs = some n := by
  obtain ⟨ds, hne, ⟨hd, rfl, rfl⟩ | ⟨hs, hd, rfl, hh, rfl⟩⟩ := h
  · have hdig : ∀ d ∈ ds.reverse, d < 10 := fun d h => hd d (by simpa using h)
    rw [numberOf_decimal (by simpa using hne) (by
      intro c hc
      obtain ⟨d, hm, rfl⟩ := List.mem_map.1 hc
      exact (digitChar_decimal (hdig d hm)).2)]
    rw [digitsValue_of_digits (by omega) _ ds.reverse hdig (by
      rw [List.map_map]
      exact List.map_congr_left fun d hm => (digitChar_decimal (hdig d hm)).1)]
    simp
  · have hdig : ∀ d ∈ ds.reverse, d < 16 := fun d h => hd d (by simpa using h)
    rw [numberOf_hex (by rintro rfl; simp at hh; exact hne hh),
      digitsValue_of_digits (by omega) _ ds.reverse hdig hh]
    simp

/-- A list of numbers between commas is read as those numbers. -/
theorem numbersOf_numberTokens {as : List (List Char)} {ns : List Nat}
    (h : List.Forall₂ Numeral as ns) : numbersOf (numberTokens as) = .ok ns := by
  induction h with
  | nil => rfl
  | @cons a n as ns ha hs ih =>
    cases as with
    | nil =>
      cases hs
      simp [numberTokens, numbersOf, numberOf_numeral ha]
    | cons b as =>
      obtain ⟨t, ts, ht⟩ : ∃ t ts, numberTokens (b :: as) = t :: ts := by
        cases as <;> exact ⟨_, _, rfl⟩
      simp only [numberTokens]
      rw [ht] at ih ⊢
      simp [numbersOf, numberOf_numeral ha, ih]

/-! ## Tokens -/

/-- A blank of a word's spelling is a blank of the scanner's. -/
theorem isBlank_of_blank {c : Char} (h : c = ' ' ∨ c = '\t' ∨ c = '\r') : isBlank c = true := by
  rcases h with rfl | rfl | rfl <;> decide

/-- Two characters with one code are one character. -/
theorem char_of_toNat {c d : Char} (h : c.toNat = d.toNat) : c = d := by
  rw [← Char.ofNat_toNat c, h, Char.ofNat_toNat]

/-- A character of a word is none the scanner ends a word at. -/
theorem wordChar_tests {c : Char} (h : WordChar c) :
    isBlank c = false ∧ c.toNat ≠ 0x3B ∧ c.toNat ≠ 0x2C ∧ c.toNat ≠ 0x22 := by
  obtain ⟨h1, h2, h3, h4, h5, h6⟩ := h
  refine ⟨?_, fun e => h5 (char_of_toNat e), fun e => h4 (char_of_toNat e),
    fun e => h6 (char_of_toNat e)⟩
  simp only [isBlank, Bool.or_eq_false_iff, decide_eq_false_iff_not]
  exact ⟨⟨fun e => h1 (char_of_toNat e), fun e => h2 (char_of_toNat e)⟩,
    fun e => h3 (char_of_toNat e)⟩

/-- The scanner takes the characters of a word up to its end. -/
theorem scan_wordChars (w cs : List Char) (rev : List Char) (h : ∀ c ∈ w, WordChar c) :
    scan (.word rev) (w ++ cs) = scan (.word (w.reverse ++ rev)) cs := by
  induction w generalizing rev with
  | nil => rfl
  | cons c w ih =>
    obtain ⟨h1, h2, h3, h4⟩ := wordChar_tests (h c (by simp))
    rw [List.cons_append]
    simp only [scan, h1, h2, h3, h4, if_false, Bool.false_eq_true]
    rw [ih (c :: rev) fun x hx => h x (by simp [hx])]
    simp

/-- A word ends where no character of a word follows: what follows is scanned as between tokens. -/
theorem scan_wordEnd (rev cs : List Char) (h : ∀ c ∈ cs.head?, ¬ WordChar c) :
    scan (.word rev) cs = thenTokens (.word rev.reverse) (scan .gap cs) := by
  cases cs with
  | nil => rfl
  | cons c cs =>
    by_cases h1 : isBlank c = true
    · simp [scan, h1]
    by_cases h2 : c.toNat = 0x3B
    · simp [scan, h1, h2, thenTokens]
    by_cases h3 : c.toNat = 0x2C
    · simp [scan, h1, h3]
    by_cases h4 : c.toNat = 0x22
    · simp [scan, h1, h4]
    refine absurd ?_ (h c (by simp))
    refine ⟨?_, ?_, ?_, ?_, ?_, ?_⟩ <;> rintro rfl <;> simp_all [isBlank, quoteChar]

/-- The scanner takes the body of a string, code by code, up to its closing quote. -/
theorem scan_stringBody {body : List Char} {ns : List Nat} (h : StringBody body ns) (cs : List Char)
    (rev : List Nat) :
    scan (.str rev) (body ++ quoteChar :: cs) = thenTokens (.str (rev.reverse ++ ns)) (scan .gap cs) := by
  have hq : quoteChar.toNat = 0x22 := by decide
  have hb : backslashChar.toNat = 0x5C := by decide
  induction h generalizing rev with
  | done => simp [scan, hq]
  | plain c h1 h2 _ ih =>
    have e1 : ¬ c.toNat = 0x22 := fun e => h1 (char_of_toNat (e.trans hq.symm))
    have e2 : ¬ c.toNat = 0x5C := fun e => h2 (char_of_toNat (e.trans hb.symm))
    simp [scan, e1, e2, ih]
  | hex ha hb' hh hl _ ih =>
    simp [scan, hb, hexDigit_of_toLower ha hh, hexDigit_of_toLower hb' hl, ih]
  | backslash _ ih => simp [scan, hb, ih]
  | quote _ ih => simp [scan, hb, hq, ih]

/-- The scanner answers the tokens a line spells. -/
theorem scan_spells {ts : List Token} {cs : List Char} (h : Spells ts cs) : scan .gap cs = .ok ts := by
  induction h with
  | done => rfl
  | comment r => rfl
  | blank hb _ ih => simp [scan, isBlank_of_blank hb, ih]
  | comma _ ih => simp [scan, isBlank, ih, thenTokens]
  | str hs _ ih =>
    have e : ∀ cs, scan .gap (quoteChar :: cs) = scan (.str []) cs := fun cs => rfl
    rw [List.cons_append, e, scan_stringBody hs, ih]
    rfl
  | @word w ts cs hne hw he _ ih =>
    obtain ⟨c, w, rfl⟩ := List.exists_cons_of_ne_nil hne
    obtain ⟨h1, h2, h3, h4⟩ := wordChar_tests (hw c (by simp))
    rw [List.cons_append]
    simp only [scan, h1, h2, h3, h4, if_false, Bool.false_eq_true]
    rw [scan_wordChars w cs [c] fun x hx => hw x (by simp [hx]), scan_wordEnd _ _ he, ih]
    simp [thenTokens]

end Sys2Proof.Machine
end

