-- ==== Sys2Proof/Laws/Decode.lean ====
section
/-! SUPPORT. The fields of a command word put together and read back (30_encoding.md R70, R71; 20_memory.md R53). -/

namespace Sys2Proof

/-- A command word bit by bit. -/
theorem getLsbD_cmdWord (op : BitVec 4) (pos : DigitPosition) (v : Bool) (data : CharWord) (i : Nat) :
    (cmdWord op pos v data).getLsbD i =
      if i < 32 then data.getLsbD i else if i = 32 then false else if i = 33 then v
      else if i < 36 then (BitVec.ofNat 2 pos.val).getLsbD (i - 34) else op.getLsbD (i - 36) := by
  unfold cmdWord
  rw [BitVec.getLsbD_append, BitVec.getLsbD_append, BitVec.getLsbD_append, BitVec.getLsbD_append]
  by_cases h1 : i < 32
  · simp [h1]
  by_cases h2 : i = 32
  · simp [h2]
  by_cases h3 : i = 33
  · simp [h3]
  by_cases h4 : i < 36
  · simp [h1, h2, h3, h4, show ¬ (i - 32 < 1) by omega, show ¬ (i - 32 - 1 < 1) by omega,
      show i - 32 - 1 - 1 = i - 34 by omega,
      show i - 34 < 2 by omega]
  · simp [h1, h2, h3, h4, show ¬ (i - 32 < 1) by omega, show ¬ (i - 32 - 1 < 1) by omega,
      show ¬ (i - 32 - 1 - 1 < 2) by omega, show i - 32 - 1 - 1 - 2 = i - 36 by omega]

/-- Four packed codes bit by bit. -/
theorem getLsbD_packChars (c0 c1 c2 c3 : CharCode) (i : Nat) :
    (packChars c0 c1 c2 c3).getLsbD i =
      if i < 8 then c3.getLsbD i else if i < 16 then c2.getLsbD (i - 8)
      else if i < 24 then c1.getLsbD (i - 16) else c0.getLsbD (i - 24) := by
  unfold packChars
  rw [BitVec.getLsbD_append, BitVec.getLsbD_append, BitVec.getLsbD_append]
  by_cases h1 : i < 8
  · simp [h1]
  by_cases h2 : i < 16
  · simp [h1, h2, show i - 8 < 8 by omega]
  by_cases h3 : i < 24
  · simp [h1, h2, h3, show ¬ (i - 8 < 8) by omega, show i - 8 - 8 = i - 16 by omega,
      show i - 16 < 8 by omega]
  · simp [h1, h2, h3, show ¬ (i - 8 < 8) by omega, show ¬ (i - 8 - 8 < 8) by omega,
      show i - 8 - 8 - 8 = i - 24 by omega]

@[simp] theorem opcodeOf_cmdWord (op : BitVec 4) (pos : DigitPosition) (v : Bool) (data : CharWord) :
    opcodeOf (cmdWord op pos v data) = op := by
  ext i hi
  simp only [opcodeOf, BitVec.getElem_extractLsb', getLsbD_cmdWord]
  rw [if_neg (by omega), if_neg (by omega), if_neg (by omega), if_neg (by omega)]
  rw [show 36 + i - 36 = i by omega, BitVec.getLsbD_eq_getElem hi]

@[simp] theorem posOf_cmdWord (op : BitVec 4) (pos : DigitPosition) (v : Bool) (data : CharWord) :
    posOf (cmdWord op pos v data) = pos := by
  have h : (cmdWord op pos v data).extractLsb' 34 2 = BitVec.ofNat 2 pos.val := by
    ext i hi
    simp only [BitVec.getElem_extractLsb', getLsbD_cmdWord]
    rw [if_neg (by omega), if_neg (by omega), if_neg (by omega), if_pos (by omega)]
    rw [show 34 + i - 34 = i by omega, BitVec.getLsbD_eq_getElem hi]
  unfold posOf
  rw [h]
  clear h
  revert pos
  decide

@[simp] theorem valueOf_cmdWord (op : BitVec 4) (pos : DigitPosition) (v : Bool) (data : CharWord) :
    valueOf (cmdWord op pos v data) = v := by
  simp only [valueOf, getLsbD_cmdWord]
  simp

@[simp] theorem dataOf_cmdWord (op : BitVec 4) (pos : DigitPosition) (v : Bool) (data : CharWord) :
    dataOf (cmdWord op pos v data) = data := by
  ext i hi
  simp only [dataOf, BitVec.getElem_extractLsb', getLsbD_cmdWord]
  rw [if_pos (by omega), Nat.zero_add, BitVec.getLsbD_eq_getElem hi]

/-- The code for a position in four packed codes. -/
theorem charAt_packChars (c : DigitPosition → CharCode) (j : DigitPosition) :
    charAt (packChars (c 0) (c 1) (c 2) (c 3)) j = c j := by
  ext i hi
  simp only [charAt, BitVec.getElem_extractLsb', getLsbD_packChars]
  fin_cases j
  · simp [show ¬ (24 + i < 8) by omega, show ¬ (24 + i < 16) by omega,
      show ¬ (24 + i < 24) by omega, BitVec.getLsbD_eq_getElem hi]
  · simp [show ¬ (16 + i < 8) by omega, show ¬ (16 + i < 16) by omega,
      show 16 + i < 24 by omega, BitVec.getLsbD_eq_getElem hi]
  · simp [show ¬ (8 + i < 8) by omega, show 8 + i < 16 by omega, BitVec.getLsbD_eq_getElem hi]
  · simp [hi]

/-- The four codes of a DATA field put together again are the field. -/
theorem packChars_charAt (data : CharWord) :
    packChars (charAt data 0) (charAt data 1) (charAt data 2) (charAt data 3) = data := by
  ext i hi
  rw [← BitVec.getLsbD_eq_getElem hi, ← BitVec.getLsbD_eq_getElem hi, getLsbD_packChars]
  simp only [charAt, BitVec.getLsbD_extractLsb']
  by_cases h1 : i < 8
  · simp [h1]
  by_cases h2 : i < 16
  · simp [h1, h2, show i - 8 < 8 by omega, show 8 + (i - 8) = i by omega]
  by_cases h3 : i < 24
  · simp [h1, h2, h3, show i - 16 < 8 by omega, show 16 + (i - 16) = i by omega]
  · simp [h1, h2, h3, show i - 24 < 8 by omega, show 24 + (i - 24) = i by omega]

/-! What each opcode decodes to (R75, R77). -/

theorem decodeCmd_nop {w : CmdWord} (h : opcodeOf w = 0x0#4) : decodeCmd w = .nop := by
  simp only [decodeCmd, h]
theorem decodeCmd_clear {w : CmdWord} (h : opcodeOf w = 0x1#4) : decodeCmd w = .clear := by
  simp only [decodeCmd, h]
theorem decodeCmd_setdig {w : CmdWord} (h : opcodeOf w = 0x2#4) :
    decodeCmd w = .setdig (posOf w) (patternOf w) := by
  simp only [decodeCmd, h]
theorem decodeCmd_setpt {w : CmdWord} (h : opcodeOf w = 0x3#4) :
    decodeCmd w = .setpt (posOf w) (valueOf w) := by
  simp only [decodeCmd, h]
theorem decodeCmd_setstr {w : CmdWord} (h : opcodeOf w = 0x4#4) :
    decodeCmd w = .setstr (charAt (dataOf w) 0) (charAt (dataOf w) 1) (charAt (dataOf w) 2)
      (charAt (dataOf w) 3) := by
  simp only [decodeCmd, h]
theorem decodeCmd_start {w : CmdWord} (h : opcodeOf w = 0x5#4) : decodeCmd w = .start := by
  simp only [decodeCmd, h]
theorem decodeCmd_stop {w : CmdWord} (h : opcodeOf w = 0x6#4) : decodeCmd w = .stop := by
  simp only [decodeCmd, h]
theorem decodeCmd_teardown {w : CmdWord} (h : opcodeOf w = 0x7#4) : decodeCmd w = .teardown := by
  simp only [decodeCmd, h]
theorem decodeCmd_reserved {w : CmdWord} (h : 0x8#4 ≤ opcodeOf w) :
    decodeCmd w = .reserved (opcodeOf w) := by
  unfold decodeCmd
  split <;> first
    | rfl
    | (rename_i h2; rw [h2] at h; exact absurd h (by decide))

/-- An opcode is one of the eight commands' or a reserved one. -/
theorem opcode_cases (op : BitVec 4) :
    op = 0x0#4 ∨ op = 0x1#4 ∨ op = 0x2#4 ∨ op = 0x3#4 ∨ op = 0x4#4 ∨ op = 0x5#4 ∨ op = 0x6#4 ∨
      op = 0x7#4 ∨ 0x8#4 ≤ op := by
  revert op
  decide

/-- A command word decodes to an instruction of the command port with its own opcode. -/
theorem decodeCmd_opcode (w : CmdWord) :
    match decodeCmd w with
    | .nop => opcodeOf w = 0x0#4
    | .clear => opcodeOf w = 0x1#4
    | .setdig pos pat => opcodeOf w = 0x2#4 ∧ pos = posOf w ∧ pat = patternOf w
    | .setpt pos v => opcodeOf w = 0x3#4 ∧ pos = posOf w ∧ v = valueOf w
    | .setstr c0 c1 c2 c3 => opcodeOf w = 0x4#4 ∧ packChars c0 c1 c2 c3 = dataOf w
    | .start => opcodeOf w = 0x5#4
    | .stop => opcodeOf w = 0x6#4
    | .teardown => opcodeOf w = 0x7#4
    | .reserved op => 0x8#4 ≤ opcodeOf w ∧ op = opcodeOf w
    | .encode _ => False := by
  rcases opcode_cases (opcodeOf w) with h | h | h | h | h | h | h | h | h
  · rw [decodeCmd_nop h]; exact h
  · rw [decodeCmd_clear h]; exact h
  · rw [decodeCmd_setdig h]; exact ⟨h, rfl, rfl⟩
  · rw [decodeCmd_setpt h]; exact ⟨h, rfl, rfl⟩
  · rw [decodeCmd_setstr h]; exact ⟨h, packChars_charAt _⟩
  · rw [decodeCmd_start h]; exact h
  · rw [decodeCmd_stop h]; exact h
  · rw [decodeCmd_teardown h]; exact h
  · rw [decodeCmd_reserved h]; exact ⟨h, rfl⟩

/-- OP as a number: the word's top four bits. -/
theorem toNat_opcodeOf (w : CmdWord) : (opcodeOf w).toNat = w.toNat / 2 ^ 36 := by
  have := w.isLt
  simp [opcodeOf, Nat.shiftRight_eq_div_pow]
  omega

end Sys2Proof
end

