-- ==== Sys2Proof/Laws/State.lean ====
section
/-! SUPPORT. For each named update of the state, one lemma a field: what the field holds afterwards. -/

namespace Sys2Proof.Machine

variable (s : State)

@[simp] theorem writeRow_seg (d : DigitPosition) (p : Pattern) :
    (s.writeRow d p).seg = s.seg.set d p := rfl
@[simp] theorem writeRow_pt (d : DigitPosition) (p : Pattern) : (s.writeRow d p).pt = s.pt := rfl
@[simp] theorem writeRow_phase (d : DigitPosition) (p : Pattern) :
    (s.writeRow d p).phase = s.phase := rfl
@[simp] theorem writeRow_dig (d : DigitPosition) (p : Pattern) : (s.writeRow d p).dig = s.dig := rfl
@[simp] theorem writeRow_dwellCnt (d : DigitPosition) (p : Pattern) :
    (s.writeRow d p).dwellCnt = s.dwellCnt := rfl
@[simp] theorem writeRow_latch (d : DigitPosition) (p : Pattern) :
    (s.writeRow d p).latch = s.latch := rfl
@[simp] theorem writeRow_run (d : DigitPosition) (p : Pattern) : (s.writeRow d p).run = s.run := rfl
@[simp] theorem writeRow_scanCount (d : DigitPosition) (p : Pattern) :
    (s.writeRow d p).scanCount = s.scanCount := rfl
@[simp] theorem writeRow_busy (d : DigitPosition) (p : Pattern) :
    (s.writeRow d p).busy = s.busy := rfl
@[simp] theorem writeRow_wrIdx (d : DigitPosition) (p : Pattern) :
    (s.writeRow d p).wrIdx = s.wrIdx := rfl
@[simp] theorem writeRow_wrChars (d : DigitPosition) (p : Pattern) :
    (s.writeRow d p).wrChars = s.wrChars := rfl
@[simp] theorem writeRow_errIllegal (d : DigitPosition) (p : Pattern) :
    (s.writeRow d p).errIllegal = s.errIllegal := rfl
@[simp] theorem writeRow_errFsm (d : DigitPosition) (p : Pattern) :
    (s.writeRow d p).errFsm = s.errFsm := rfl
@[simp] theorem writeRow_cfg (d : DigitPosition) (p : Pattern) : (s.writeRow d p).cfg = s.cfg := rfl
@[simp] theorem writeRow_host (d : DigitPosition) (p : Pattern) :
    (s.writeRow d p).host = s.host := rfl
@[simp] theorem writeRow_encPat (d : DigitPosition) (p : Pattern) :
    (s.writeRow d p).encPat = s.encPat := rfl
@[simp] theorem writeRow_resetSeen (d : DigitPosition) (p : Pattern) :
    (s.writeRow d p).resetSeen = s.resetSeen := rfl

@[simp] theorem writePoint_seg (d : DigitPosition) (v : Bool) :
    (s.writePoint d v).seg = s.seg := rfl
@[simp] theorem writePoint_pt (d : DigitPosition) (v : Bool) :
    (s.writePoint d v).pt = s.pt.set d v := rfl
@[simp] theorem writePoint_phase (d : DigitPosition) (v : Bool) :
    (s.writePoint d v).phase = s.phase := rfl
@[simp] theorem writePoint_dig (d : DigitPosition) (v : Bool) :
    (s.writePoint d v).dig = s.dig := rfl
@[simp] theorem writePoint_dwellCnt (d : DigitPosition) (v : Bool) :
    (s.writePoint d v).dwellCnt = s.dwellCnt := rfl
@[simp] theorem writePoint_latch (d : DigitPosition) (v : Bool) :
    (s.writePoint d v).latch = s.latch := rfl
@[simp] theorem writePoint_run (d : DigitPosition) (v : Bool) :
    (s.writePoint d v).run = s.run := rfl
@[simp] theorem writePoint_scanCount (d : DigitPosition) (v : Bool) :
    (s.writePoint d v).scanCount = s.scanCount := rfl
@[simp] theorem writePoint_busy (d : DigitPosition) (v : Bool) :
    (s.writePoint d v).busy = s.busy := rfl
@[simp] theorem writePoint_wrIdx (d : DigitPosition) (v : Bool) :
    (s.writePoint d v).wrIdx = s.wrIdx := rfl
@[simp] theorem writePoint_wrChars (d : DigitPosition) (v : Bool) :
    (s.writePoint d v).wrChars = s.wrChars := rfl
@[simp] theorem writePoint_errIllegal (d : DigitPosition) (v : Bool) :
    (s.writePoint d v).errIllegal = s.errIllegal := rfl
@[simp] theorem writePoint_errFsm (d : DigitPosition) (v : Bool) :
    (s.writePoint d v).errFsm = s.errFsm := rfl
@[simp] theorem writePoint_cfg (d : DigitPosition) (v : Bool) :
    (s.writePoint d v).cfg = s.cfg := rfl
@[simp] theorem writePoint_host (d : DigitPosition) (v : Bool) :
    (s.writePoint d v).host = s.host := rfl
@[simp] theorem writePoint_encPat (d : DigitPosition) (v : Bool) :
    (s.writePoint d v).encPat = s.encPat := rfl
@[simp] theorem writePoint_resetSeen (d : DigitPosition) (v : Bool) :
    (s.writePoint d v).resetSeen = s.resetSeen := rfl

@[simp] theorem clearBuffer_seg : s.clearBuffer.seg = PerDigit.const 0#7 := rfl
@[simp] theorem clearBuffer_pt : s.clearBuffer.pt = PerDigit.const false := rfl
@[simp] theorem clearBuffer_phase : s.clearBuffer.phase = s.phase := rfl
@[simp] theorem clearBuffer_dig : s.clearBuffer.dig = s.dig := rfl
@[simp] theorem clearBuffer_dwellCnt : s.clearBuffer.dwellCnt = s.dwellCnt := rfl
@[simp] theorem clearBuffer_latch : s.clearBuffer.latch = s.latch := rfl
@[simp] theorem clearBuffer_run : s.clearBuffer.run = s.run := rfl
@[simp] theorem clearBuffer_scanCount : s.clearBuffer.scanCount = s.scanCount := rfl
@[simp] theorem clearBuffer_busy : s.clearBuffer.busy = s.busy := rfl
@[simp] theorem clearBuffer_wrIdx : s.clearBuffer.wrIdx = s.wrIdx := rfl
@[simp] theorem clearBuffer_wrChars : s.clearBuffer.wrChars = s.wrChars := rfl
@[simp] theorem clearBuffer_errIllegal : s.clearBuffer.errIllegal = s.errIllegal := rfl
@[simp] theorem clearBuffer_errFsm : s.clearBuffer.errFsm = s.errFsm := rfl
@[simp] theorem clearBuffer_cfg : s.clearBuffer.cfg = s.cfg := rfl
@[simp] theorem clearBuffer_host : s.clearBuffer.host = s.host := rfl
@[simp] theorem clearBuffer_encPat : s.clearBuffer.encPat = s.encPat := rfl
@[simp] theorem clearBuffer_resetSeen : s.clearBuffer.resetSeen = s.resetSeen := rfl

@[simp] theorem writeChar_seg (d : DigitPosition) (c : CharCode) :
    (s.writeChar d c).seg = s.seg.set d (enc s.cfg.glyph c) := rfl
@[simp] theorem writeChar_pt (d : DigitPosition) (c : CharCode) : (s.writeChar d c).pt = s.pt := rfl
@[simp] theorem writeChar_phase (d : DigitPosition) (c : CharCode) :
    (s.writeChar d c).phase = s.phase := rfl
@[simp] theorem writeChar_dig (d : DigitPosition) (c : CharCode) :
    (s.writeChar d c).dig = s.dig := rfl
@[simp] theorem writeChar_dwellCnt (d : DigitPosition) (c : CharCode) :
    (s.writeChar d c).dwellCnt = s.dwellCnt := rfl
@[simp] theorem writeChar_latch (d : DigitPosition) (c : CharCode) :
    (s.writeChar d c).latch = s.latch := rfl
@[simp] theorem writeChar_run (d : DigitPosition) (c : CharCode) :
    (s.writeChar d c).run = s.run := rfl
@[simp] theorem writeChar_scanCount (d : DigitPosition) (c : CharCode) :
    (s.writeChar d c).scanCount = s.scanCount := rfl
@[simp] theorem writeChar_busy (d : DigitPosition) (c : CharCode) :
    (s.writeChar d c).busy = s.busy := rfl
@[simp] theorem writeChar_wrIdx (d : DigitPosition) (c : CharCode) :
    (s.writeChar d c).wrIdx = s.wrIdx := rfl
@[simp] theorem writeChar_wrChars (d : DigitPosition) (c : CharCode) :
    (s.writeChar d c).wrChars = s.wrChars := rfl
@[simp] theorem writeChar_errIllegal (d : DigitPosition) (c : CharCode) :
    (s.writeChar d c).errIllegal = s.errIllegal := rfl
@[simp] theorem writeChar_errFsm (d : DigitPosition) (c : CharCode) :
    (s.writeChar d c).errFsm = s.errFsm := rfl
@[simp] theorem writeChar_cfg (d : DigitPosition) (c : CharCode) :
    (s.writeChar d c).cfg = s.cfg := rfl
@[simp] theorem writeChar_host (d : DigitPosition) (c : CharCode) :
    (s.writeChar d c).host = s.host := rfl
@[simp] theorem writeChar_encPat (d : DigitPosition) (c : CharCode) :
    (s.writeChar d c).encPat = s.encPat := rfl
@[simp] theorem writeChar_resetSeen (d : DigitPosition) (c : CharCode) :
    (s.writeChar d c).resetSeen = s.resetSeen := rfl

@[simp] theorem halt_seg : s.halt.seg = s.seg := rfl
@[simp] theorem halt_pt : s.halt.pt = s.pt := rfl
@[simp] theorem halt_phase : s.halt.phase = .idle := rfl
@[simp] theorem halt_dig : s.halt.dig = 0 := rfl
@[simp] theorem halt_dwellCnt : s.halt.dwellCnt = 0 := rfl
@[simp] theorem halt_latch : s.halt.latch = 0#8 := rfl
@[simp] theorem halt_run : s.halt.run = false := rfl
@[simp] theorem halt_scanCount : s.halt.scanCount = s.scanCount := rfl
@[simp] theorem halt_busy : s.halt.busy = s.busy := rfl
@[simp] theorem halt_wrIdx : s.halt.wrIdx = s.wrIdx := rfl
@[simp] theorem halt_wrChars : s.halt.wrChars = s.wrChars := rfl
@[simp] theorem halt_errIllegal : s.halt.errIllegal = s.errIllegal := rfl
@[simp] theorem halt_errFsm : s.halt.errFsm = s.errFsm := rfl
@[simp] theorem halt_cfg : s.halt.cfg = s.cfg := rfl
@[simp] theorem halt_host : s.halt.host = s.host := rfl
@[simp] theorem halt_encPat : s.halt.encPat = s.encPat := rfl
@[simp] theorem halt_resetSeen : s.halt.resetSeen = s.resetSeen := rfl

@[simp] theorem raiseIllegal_seg : s.raiseIllegal.seg = s.seg := rfl
@[simp] theorem raiseIllegal_pt : s.raiseIllegal.pt = s.pt := rfl
@[simp] theorem raiseIllegal_phase : s.raiseIllegal.phase = s.phase := rfl
@[simp] theorem raiseIllegal_dig : s.raiseIllegal.dig = s.dig := rfl
@[simp] theorem raiseIllegal_dwellCnt : s.raiseIllegal.dwellCnt = s.dwellCnt := rfl
@[simp] theorem raiseIllegal_latch : s.raiseIllegal.latch = s.latch := rfl
@[simp] theorem raiseIllegal_run : s.raiseIllegal.run = s.run := rfl
@[simp] theorem raiseIllegal_scanCount : s.raiseIllegal.scanCount = s.scanCount := rfl
@[simp] theorem raiseIllegal_busy : s.raiseIllegal.busy = s.busy := rfl
@[simp] theorem raiseIllegal_wrIdx : s.raiseIllegal.wrIdx = s.wrIdx := rfl
@[simp] theorem raiseIllegal_wrChars : s.raiseIllegal.wrChars = s.wrChars := rfl
@[simp] theorem raiseIllegal_errIllegal : s.raiseIllegal.errIllegal = true := rfl
@[simp] theorem raiseIllegal_errFsm : s.raiseIllegal.errFsm = s.errFsm := rfl
@[simp] theorem raiseIllegal_cfg : s.raiseIllegal.cfg = s.cfg := rfl
@[simp] theorem raiseIllegal_host : s.raiseIllegal.host = s.host := rfl
@[simp] theorem raiseIllegal_encPat : s.raiseIllegal.encPat = s.encPat := rfl
@[simp] theorem raiseIllegal_resetSeen : s.raiseIllegal.resetSeen = s.resetSeen := rfl

@[simp] theorem raiseFsm_seg : s.raiseFsm.seg = s.seg := rfl
@[simp] theorem raiseFsm_pt : s.raiseFsm.pt = s.pt := rfl
@[simp] theorem raiseFsm_phase : s.raiseFsm.phase = s.phase := rfl
@[simp] theorem raiseFsm_dig : s.raiseFsm.dig = s.dig := rfl
@[simp] theorem raiseFsm_dwellCnt : s.raiseFsm.dwellCnt = s.dwellCnt := rfl
@[simp] theorem raiseFsm_latch : s.raiseFsm.latch = s.latch := rfl
@[simp] theorem raiseFsm_run : s.raiseFsm.run = s.run := rfl
@[simp] theorem raiseFsm_scanCount : s.raiseFsm.scanCount = s.scanCount := rfl
@[simp] theorem raiseFsm_busy : s.raiseFsm.busy = s.busy := rfl
@[simp] theorem raiseFsm_wrIdx : s.raiseFsm.wrIdx = s.wrIdx := rfl
@[simp] theorem raiseFsm_wrChars : s.raiseFsm.wrChars = s.wrChars := rfl
@[simp] theorem raiseFsm_errIllegal : s.raiseFsm.errIllegal = s.errIllegal := rfl
@[simp] theorem raiseFsm_errFsm : s.raiseFsm.errFsm = true := rfl
@[simp] theorem raiseFsm_cfg : s.raiseFsm.cfg = s.cfg := rfl
@[simp] theorem raiseFsm_host : s.raiseFsm.host = s.host := rfl
@[simp] theorem raiseFsm_encPat : s.raiseFsm.encPat = s.encPat := rfl
@[simp] theorem raiseFsm_resetSeen : s.raiseFsm.resetSeen = s.resetSeen := rfl

@[simp] theorem nextCycle_seg : s.nextCycle.seg = s.seg := rfl
@[simp] theorem nextCycle_pt : s.nextCycle.pt = s.pt := rfl
@[simp] theorem nextCycle_phase : s.nextCycle.phase = s.phase := rfl
@[simp] theorem nextCycle_dig : s.nextCycle.dig = s.dig := rfl
@[simp] theorem nextCycle_dwellCnt : s.nextCycle.dwellCnt = s.dwellCnt := rfl
@[simp] theorem nextCycle_latch : s.nextCycle.latch = s.latch := rfl
@[simp] theorem nextCycle_run : s.nextCycle.run = s.run := rfl
@[simp] theorem nextCycle_scanCount : s.nextCycle.scanCount = s.scanCount := rfl
@[simp] theorem nextCycle_busy : s.nextCycle.busy = s.busy := rfl
@[simp] theorem nextCycle_wrIdx : s.nextCycle.wrIdx = s.wrIdx := rfl
@[simp] theorem nextCycle_wrChars : s.nextCycle.wrChars = s.wrChars := rfl
@[simp] theorem nextCycle_errIllegal : s.nextCycle.errIllegal = s.errIllegal := rfl
@[simp] theorem nextCycle_errFsm : s.nextCycle.errFsm = s.errFsm := rfl
@[simp] theorem nextCycle_cfg : s.nextCycle.cfg = s.cfg := rfl
@[simp] theorem nextCycle_host : s.nextCycle.host = s.host.tail := rfl
@[simp] theorem nextCycle_encPat : s.nextCycle.encPat = s.encPat := rfl
@[simp] theorem nextCycle_resetSeen : s.nextCycle.resetSeen = s.resetSeen := rfl

@[simp] theorem present_seg (i : Inputs) : (s.present i).seg = s.seg := rfl
@[simp] theorem present_pt (i : Inputs) : (s.present i).pt = s.pt := rfl
@[simp] theorem present_phase (i : Inputs) : (s.present i).phase = s.phase := rfl
@[simp] theorem present_dig (i : Inputs) : (s.present i).dig = s.dig := rfl
@[simp] theorem present_dwellCnt (i : Inputs) : (s.present i).dwellCnt = s.dwellCnt := rfl
@[simp] theorem present_latch (i : Inputs) : (s.present i).latch = s.latch := rfl
@[simp] theorem present_run (i : Inputs) : (s.present i).run = s.run := rfl
@[simp] theorem present_scanCount (i : Inputs) : (s.present i).scanCount = s.scanCount := rfl
@[simp] theorem present_busy (i : Inputs) : (s.present i).busy = s.busy := rfl
@[simp] theorem present_wrIdx (i : Inputs) : (s.present i).wrIdx = s.wrIdx := rfl
@[simp] theorem present_wrChars (i : Inputs) : (s.present i).wrChars = s.wrChars := rfl
@[simp] theorem present_errIllegal (i : Inputs) : (s.present i).errIllegal = s.errIllegal := rfl
@[simp] theorem present_errFsm (i : Inputs) : (s.present i).errFsm = s.errFsm := rfl
@[simp] theorem present_cfg (i : Inputs) : (s.present i).cfg = s.cfg := rfl
@[simp] theorem present_host (i : Inputs) : (s.present i).host = i :: s.host.tail := rfl
@[simp] theorem present_encPat (i : Inputs) : (s.present i).encPat = s.encPat := rfl
@[simp] theorem present_resetSeen (i : Inputs) : (s.present i).resetSeen = s.resetSeen := rfl

@[simp] theorem served_seg : s.served.seg = s.seg := rfl
@[simp] theorem served_pt : s.served.pt = s.pt := rfl
@[simp] theorem served_phase : s.served.phase = s.phase := rfl
@[simp] theorem served_dig : s.served.dig = s.dig := rfl
@[simp] theorem served_dwellCnt : s.served.dwellCnt = s.dwellCnt := rfl
@[simp] theorem served_latch : s.served.latch = s.latch := rfl
@[simp] theorem served_run : s.served.run = s.run := rfl
@[simp] theorem served_scanCount : s.served.scanCount = s.scanCount := rfl
@[simp] theorem served_busy : s.served.busy = s.busy := rfl
@[simp] theorem served_wrIdx : s.served.wrIdx = s.wrIdx := rfl
@[simp] theorem served_wrChars : s.served.wrChars = s.wrChars := rfl
@[simp] theorem served_errIllegal : s.served.errIllegal = s.errIllegal := rfl
@[simp] theorem served_errFsm : s.served.errFsm = s.errFsm := rfl
@[simp] theorem served_cfg : s.served.cfg = s.cfg := rfl
@[simp] theorem served_host : s.served.host = s.host.tail := rfl
@[simp] theorem served_encPat : s.served.encPat = enc s.cfg.glyph s.presented.encChar := rfl
@[simp] theorem served_resetSeen : s.served.resetSeen = s.resetSeen := rfl

@[simp] theorem resetRegisters_seg : s.resetRegisters.seg = PerDigit.const 0#7 := rfl
@[simp] theorem resetRegisters_pt : s.resetRegisters.pt = PerDigit.const false := rfl
@[simp] theorem resetRegisters_phase : s.resetRegisters.phase = .idle := rfl
@[simp] theorem resetRegisters_dig : s.resetRegisters.dig = 0 := rfl
@[simp] theorem resetRegisters_dwellCnt : s.resetRegisters.dwellCnt = 0 := rfl
@[simp] theorem resetRegisters_latch : s.resetRegisters.latch = 0#8 := rfl
@[simp] theorem resetRegisters_run : s.resetRegisters.run = false := rfl
@[simp] theorem resetRegisters_scanCount : s.resetRegisters.scanCount = 0#16 := rfl
@[simp] theorem resetRegisters_busy : s.resetRegisters.busy = false := rfl
@[simp] theorem resetRegisters_wrIdx : s.resetRegisters.wrIdx = 0 := rfl
@[simp] theorem resetRegisters_wrChars : s.resetRegisters.wrChars = 0#32 := rfl
@[simp] theorem resetRegisters_errIllegal : s.resetRegisters.errIllegal = false := rfl
@[simp] theorem resetRegisters_errFsm : s.resetRegisters.errFsm = false := rfl
@[simp] theorem resetRegisters_cfg : s.resetRegisters.cfg = s.cfg := rfl
@[simp] theorem resetRegisters_host : s.resetRegisters.host = s.host := rfl
@[simp] theorem resetRegisters_encPat : s.resetRegisters.encPat = s.encPat := rfl
@[simp] theorem resetRegisters_resetSeen : s.resetRegisters.resetSeen = true := rfl

end Sys2Proof.Machine
end

