-- ==== Sys2Proof/Laws/Ops.lean ====
section
/-! SUPPORT. What the named operations do, seen through the readers of the state. -/

namespace Sys2Proof

theorem PerDigit.get_set {α : Type} (r : PerDigit α) (d e : DigitPosition) (a : α) :
    (r.set d a).get e = if e = d then a else r.get e := by
  fin_cases d <;> fin_cases e <;> rfl

@[simp] theorem PerDigit.get_const {α : Type} (a : α) (d : DigitPosition) :
    (PerDigit.const a).get d = a := by
  fin_cases d <;> rfl

theorem PerDigit.ext_get {α : Type} {r r' : PerDigit α} (h : ∀ d, r.get d = r'.get d) : r = r' := by
  cases r
  cases r'
  simpa [PerDigit.get] using And.intro (h 0) ⟨h 1, h 2, h 3⟩

namespace Machine

variable (s : State)

@[simp] theorem segRow_writeRow (d e : DigitPosition) (p : Pattern) :
    (s.writeRow d p).segRow e = if e = d then p else s.segRow e := PerDigit.get_set ..

@[simp] theorem point_writeRow (d e : DigitPosition) (p : Pattern) :
    (s.writeRow d p).point e = s.point e := rfl

@[simp] theorem point_writePoint (d e : DigitPosition) (v : Bool) :
    (s.writePoint d v).point e = if e = d then v else s.point e := PerDigit.get_set ..

@[simp] theorem segRow_writePoint (d e : DigitPosition) (v : Bool) :
    (s.writePoint d v).segRow e = s.segRow e := rfl

@[simp] theorem segRow_writeChar (d e : DigitPosition) (c : CharCode) :
    (s.writeChar d c).segRow e = if e = d then enc s.cfg.glyph c else s.segRow e :=
  PerDigit.get_set ..

@[simp] theorem point_writeChar (d e : DigitPosition) (c : CharCode) :
    (s.writeChar d c).point e = s.point e := rfl

@[simp] theorem segRow_clearBuffer (d : DigitPosition) : s.clearBuffer.segRow d = 0#7 :=
  PerDigit.get_const ..

@[simp] theorem point_clearBuffer (d : DigitPosition) : s.clearBuffer.point d = false :=
  PerDigit.get_const ..

@[simp] theorem segRow_resetRegisters (d : DigitPosition) : s.resetRegisters.segRow d = 0#7 :=
  PerDigit.get_const 0#7 d

@[simp] theorem point_resetRegisters (d : DigitPosition) : s.resetRegisters.point d = false :=
  PerDigit.get_const false d

/-- The low seven bits of the 4 x 8 view are the row. -/
@[simp] theorem setWidth_lineRow (d : DigitPosition) : (s.lineRow d).setWidth 7 = s.segRow d := by
  ext i hi
  simp only [State.lineRow, BitVec.getElem_setWidth, BitVec.getLsbD_append]
  simp [hi]

/-- Bit 7 of the 4 x 8 view is the point. -/
@[simp] theorem getLsbD_lineRow_seven (d : DigitPosition) : (s.lineRow d).getLsbD 7 = s.point d := by
  unfold State.lineRow
  rw [BitVec.getLsbD_append]
  simp

/-- The presented inputs after `present` are those given. -/
@[simp] theorem presented_present (i : Inputs) : (s.present i).presented = i := rfl

/-- The inputs left after the first `n` cycles begin with the `n`th of the schedule. -/
theorem presented_eq_getD : s.presented = s.host.getD 0 Inputs.idle := by
  simp [State.presented, List.headD_eq_head?_getD, List.head?_eq_getElem?]

/-- What the host is known to present in this cycle, where idle inputs meet the condition. -/
theorem presented_of_take {P : Inputs → Prop} {n : Nat} (h : ∀ i ∈ s.host.take (n + 1), P i)
    (idle : P Inputs.idle) : P s.presented := by
  unfold State.presented
  cases hs : s.host with
  | nil => exact idle
  | cons i l => exact h i (by simp [hs])

/-- What the host is known to present in the cycles after this one. -/
theorem tail_of_take {P : Inputs → Prop} {n : Nat} (h : ∀ i ∈ s.host.take (n + 1), P i) :
    ∀ i ∈ s.host.tail.take n, P i := by
  cases hs : s.host with
  | nil => simp
  | cons i l =>
    intro j hj
    exact h j (by simpa [hs] using Or.inr hj)

end Machine
end Sys2Proof
end

