-- ==== Sys2Proof/Laws/Engine.lean ====
section
/-! SUPPORT. What the engine's and the sequencer's edges write and what they leave alone (43_refresh_engine.md R160). -/

namespace Sys2Proof.Machine

variable (s : State)

/-- Everything the engine's edge leaves alone: the buffer, the sequencer, ERR_ILLEGAL and the model's
own fields (R160: "Part 1 writes only PHASE, DIG, DWELL_CNT, LATCH, RUN, SCAN_COUNT and ERR_FSM"). -/
theorem engineEdge_frame :
    (engineEdge s).seg = s.seg ∧ (engineEdge s).pt = s.pt ∧ (engineEdge s).busy = s.busy ∧
    (engineEdge s).wrIdx = s.wrIdx ∧ (engineEdge s).wrChars = s.wrChars ∧
    (engineEdge s).errIllegal = s.errIllegal ∧ (engineEdge s).cfg = s.cfg ∧
    (engineEdge s).host = s.host ∧ (engineEdge s).encPat = s.encPat ∧
    (engineEdge s).resetSeen = s.resetSeen := by
  unfold engineEdge
  split
  · simp [idleEdge]
  · simp [digOnEdge]
  · unfold segOnEdge; split <;> simp
  · simp [segOffEdge]
  · unfold digOffEdge; split <;> simp
  · simp [unreachableEdge]

@[simp] theorem engineEdge_seg : (engineEdge s).seg = s.seg := (engineEdge_frame s).1
@[simp] theorem engineEdge_pt : (engineEdge s).pt = s.pt := (engineEdge_frame s).2.1
@[simp] theorem engineEdge_busy : (engineEdge s).busy = s.busy := (engineEdge_frame s).2.2.1
@[simp] theorem engineEdge_wrIdx : (engineEdge s).wrIdx = s.wrIdx := (engineEdge_frame s).2.2.2.1
@[simp] theorem engineEdge_wrChars : (engineEdge s).wrChars = s.wrChars :=
  (engineEdge_frame s).2.2.2.2.1
@[simp] theorem engineEdge_errIllegal : (engineEdge s).errIllegal = s.errIllegal :=
  (engineEdge_frame s).2.2.2.2.2.1
@[simp] theorem engineEdge_cfg : (engineEdge s).cfg = s.cfg := (engineEdge_frame s).2.2.2.2.2.2.1
@[simp] theorem engineEdge_host : (engineEdge s).host = s.host :=
  (engineEdge_frame s).2.2.2.2.2.2.2.1
@[simp] theorem engineEdge_encPat : (engineEdge s).encPat = s.encPat :=
  (engineEdge_frame s).2.2.2.2.2.2.2.2.1
@[simp] theorem engineEdge_resetSeen : (engineEdge s).resetSeen = s.resetSeen :=
  (engineEdge_frame s).2.2.2.2.2.2.2.2.2

@[simp] theorem engineEdge_segRow (d : DigitPosition) : (engineEdge s).segRow d = s.segRow d := by
  simp [State.segRow]

@[simp] theorem engineEdge_point (d : DigitPosition) : (engineEdge s).point d = s.point d := by
  simp [State.point]

/-- The engine's edge neither reads nor writes the sequencer's registers, ERR_ILLEGAL and the model's own
fields but the parameters: putting other values there before it is the same as after it. -/
theorem engineEdge_otherFields (b : Bool) (x : DigitPosition) (w : CharWord) (e : Bool)
    (l : List Inputs) (p : Pattern) (r : Bool) :
    engineEdge { s with
        busy := b, wrIdx := x, wrChars := w, errIllegal := e, host := l, encPat := p
        resetSeen := r } =
      { engineEdge s with
        busy := b, wrIdx := x, wrChars := w, errIllegal := e, host := l, encPat := p
        resetSeen := r } := by
  obtain ⟨_, _, phase, _, _, _, _, _, _, _, _, _, _, _, _, _, _⟩ := s
  cases phase with
  | segOn => simp only [engineEdge, segOnEdge]; split <;> rfl
  | digOff => simp only [engineEdge, digOffEdge]; split <;> rfl
  | _ => rfl

/-- Serving the port and moving the host's schedule on before the engine's edge is the same as after
it. -/
theorem engineEdge_served :
    engineEdge s.served =
      { engineEdge s with
        host := s.host.tail, encPat := enc s.cfg.glyph s.presented.encChar } := by
  refine (engineEdge_otherFields s s.busy s.wrIdx s.wrChars s.errIllegal s.host.tail _
    s.resetSeen).trans ?_
  simp

/-- The engine does not read what enc_pat showed. -/
theorem engineEdge_withEncPat (p : Pattern) :
    engineEdge { s with encPat := p } = { engineEdge s with encPat := p } := by
  refine (engineEdge_otherFields s s.busy s.wrIdx s.wrChars s.errIllegal s.host p s.resetSeen).trans ?_
  simp

/-! The engine's edge phase by phase. -/

theorem engineEdge_idle (h : s.phase = .idle) : engineEdge s = s := by
  simp [engineEdge, h, idleEdge]

theorem engineEdge_digOn (h : s.phase = .digOn) : engineEdge s = digOnEdge s := by
  simp [engineEdge, h]

theorem engineEdge_segOn (h : s.phase = .segOn) : engineEdge s = segOnEdge s := by
  simp [engineEdge, h]

theorem engineEdge_segOff (h : s.phase = .segOff) : engineEdge s = segOffEdge s := by
  simp [engineEdge, h]

theorem engineEdge_digOff (h : s.phase = .digOff) : engineEdge s = digOffEdge s := by
  simp [engineEdge, h]

/-- ERR_FSM is set by the engine's edge in an unreachable phase and by nothing else of it (R147). -/
theorem engineEdge_errFsm :
    (engineEdge s).errFsm = true ↔ s.errFsm = true ∨ ∃ k, s.phase = .unreachable k := by
  cases h : s.phase
  · simp [engineEdge, h, idleEdge]
  · simp [engineEdge, h, digOnEdge]
  · unfold engineEdge; simp only [h]; unfold segOnEdge; split <;> simp
  · simp [engineEdge, h, segOffEdge]
  · unfold engineEdge; simp only [h]; unfold digOffEdge; split <;> simp
  · simp [engineEdge, h, unreachableEdge]

/-- Everything the sequencer's edge leaves alone: all but SEG, BUSY and WR_IDX
(42_buffer_commands.md R125). -/
theorem sequencerEdge_frame :
    (sequencerEdge s).pt = s.pt ∧ (sequencerEdge s).phase = s.phase ∧
    (sequencerEdge s).dig = s.dig ∧ (sequencerEdge s).dwellCnt = s.dwellCnt ∧
    (sequencerEdge s).latch = s.latch ∧ (sequencerEdge s).run = s.run ∧
    (sequencerEdge s).scanCount = s.scanCount ∧ (sequencerEdge s).wrChars = s.wrChars ∧
    (sequencerEdge s).errIllegal = s.errIllegal ∧ (sequencerEdge s).errFsm = s.errFsm ∧
    (sequencerEdge s).cfg = s.cfg ∧ (sequencerEdge s).host = s.host ∧
    (sequencerEdge s).encPat = s.encPat ∧ (sequencerEdge s).resetSeen = s.resetSeen := by
  unfold sequencerEdge
  split
  · simp only [sequencerWrite]
    split <;> simp
  · simp

@[simp] theorem sequencerEdge_pt : (sequencerEdge s).pt = s.pt := (sequencerEdge_frame s).1
@[simp] theorem sequencerEdge_phase : (sequencerEdge s).phase = s.phase :=
  (sequencerEdge_frame s).2.1
@[simp] theorem sequencerEdge_dig : (sequencerEdge s).dig = s.dig := (sequencerEdge_frame s).2.2.1
@[simp] theorem sequencerEdge_dwellCnt : (sequencerEdge s).dwellCnt = s.dwellCnt :=
  (sequencerEdge_frame s).2.2.2.1
@[simp] theorem sequencerEdge_latch : (sequencerEdge s).latch = s.latch :=
  (sequencerEdge_frame s).2.2.2.2.1
@[simp] theorem sequencerEdge_run : (sequencerEdge s).run = s.run :=
  (sequencerEdge_frame s).2.2.2.2.2.1
@[simp] theorem sequencerEdge_scanCount : (sequencerEdge s).scanCount = s.scanCount :=
  (sequencerEdge_frame s).2.2.2.2.2.2.1
@[simp] theorem sequencerEdge_wrChars : (sequencerEdge s).wrChars = s.wrChars :=
  (sequencerEdge_frame s).2.2.2.2.2.2.2.1
@[simp] theorem sequencerEdge_errIllegal : (sequencerEdge s).errIllegal = s.errIllegal :=
  (sequencerEdge_frame s).2.2.2.2.2.2.2.2.1
@[simp] theorem sequencerEdge_errFsm : (sequencerEdge s).errFsm = s.errFsm :=
  (sequencerEdge_frame s).2.2.2.2.2.2.2.2.2.1
@[simp] theorem sequencerEdge_cfg : (sequencerEdge s).cfg = s.cfg :=
  (sequencerEdge_frame s).2.2.2.2.2.2.2.2.2.2.1
@[simp] theorem sequencerEdge_host : (sequencerEdge s).host = s.host :=
  (sequencerEdge_frame s).2.2.2.2.2.2.2.2.2.2.2.1
@[simp] theorem sequencerEdge_encPat : (sequencerEdge s).encPat = s.encPat :=
  (sequencerEdge_frame s).2.2.2.2.2.2.2.2.2.2.2.2.1
@[simp] theorem sequencerEdge_resetSeen : (sequencerEdge s).resetSeen = s.resetSeen :=
  (sequencerEdge_frame s).2.2.2.2.2.2.2.2.2.2.2.2.2

@[simp] theorem sequencerEdge_point (d : DigitPosition) :
    (sequencerEdge s).point d = s.point d := by
  simp [State.point]

/-- The sequencer writes nothing while it is not busy. -/
theorem sequencerEdge_ready (h : s.busy = false) : sequencerEdge s = s := by
  simp [sequencerEdge, h]

/-- BUSY, WR_IDX and the rows after an edge of a busy sequencer (R125). -/
theorem sequencerEdge_busy_spec (h : s.busy = true) :
    (sequencerEdge s).busy = !decide (s.wrIdx = 3) ∧
    (sequencerEdge s).wrIdx = (if s.wrIdx = 3 then 0 else s.wrIdx + 1) ∧
    ∀ d, (sequencerEdge s).segRow d =
      if d = s.wrIdx then enc s.cfg.glyph (charAt s.wrChars s.wrIdx) else s.segRow d := by
  simp only [sequencerEdge, h, if_true, sequencerWrite]
  split
  · rename_i h3
    refine ⟨by simp [h3], rfl, fun d => ?_⟩
    exact segRow_writeChar s s.wrIdx d _
  · rename_i h3
    refine ⟨by simp [h3, h], rfl, fun d => ?_⟩
    exact segRow_writeChar s s.wrIdx d _

/-- The sequencer does not read what enc_pat showed. -/
theorem sequencerEdge_withEncPat (p : Pattern) :
    sequencerEdge { s with encPat := p } = { sequencerEdge s with encPat := p } := by
  simp only [sequencerEdge, sequencerWrite]
  split
  · split <;> rfl
  · rfl

end Sys2Proof.Machine
end

