-- ==== Sys2Proof/Laws/Exec.lean ====
section
/-! SUPPORT. What the meanings of the instructions do (exec), once for each. -/

namespace Sys2Proof.Machine

variable (s : State)

theorem exec_nop : exec .nop s = .next s := rfl
theorem exec_clear : exec .clear s = .next s.clearBuffer := rfl
theorem exec_setdig (pos : DigitPosition) (pat : Pattern) :
    exec (.setdig pos pat) s = .next (s.writeRow pos pat) := rfl
theorem exec_setpt (pos : DigitPosition) (v : Bool) :
    exec (.setpt pos v) s = .next (s.writePoint pos v) := rfl
theorem exec_setstr (c0 c1 c2 c3 : CharCode) :
    exec (.setstr c0 c1 c2 c3) s =
      .next { s.writeChar 0 c0 with wrChars := packChars c0 c1 c2 c3, wrIdx := 1, busy := true } :=
  rfl
theorem exec_start_idle (h : s.phase = .idle) :
    exec .start s = .next { s with run := true, phase := .digOn, dig := 0 } := by
  simp [exec, execStart, h]
theorem exec_start_running (h : s.phase ≠ .idle) :
    exec .start s = .next { s with run := true } := by
  simp [exec, execStart, h]
theorem exec_stop : exec .stop s = .next { s with run := false } := rfl
theorem exec_teardown : exec .teardown s = .next s.halt := rfl
theorem exec_reserved (op : BitVec 4) : exec (.reserved op) s = .next s.raiseIllegal := rfl
theorem exec_encode (c : CharCode) :
    exec (.encode c) s = .next { s with encPat := enc s.cfg.glyph c } := rfl

/-- No instruction stops: each answers a next state, in which the parameters, the host's schedule and
`resetSeen` are as before. -/
theorem exec_answers (i : Instr) :
    ∃ t, exec i s = .next t ∧ t.cfg = s.cfg ∧ t.host = s.host ∧ t.resetSeen = s.resetSeen := by
  cases i with
  | start => by_cases h : s.phase = .idle <;> simp [exec, execStart, h]
  | _ => exact ⟨_, rfl, rfl, rfl, rfl⟩

/-- No command changes what enc_pat showed: only the lookup of the ENCODE port does. -/
theorem exec_encPat {t : State} {w : CmdWord} (h : exec (decodeCmd w) s = .next t) :
    t.encPat = s.encPat := by
  unfold decodeCmd at h
  split at h
  case h_6 =>
    by_cases hp : s.phase = .idle
    · rw [exec_start_idle s hp] at h; cases h; rfl
    · rw [exec_start_running s hp] at h; cases h; rfl
  all_goals cases h; rfl

/-- A command that is none of START, STOP and TEARDOWN leaves the engine's registers alone. -/
theorem exec_engineKept {t : State} {i : Instr} (h : exec i s = .next t)
    (h1 : i ≠ .start) (h2 : i ≠ .stop) (h3 : i ≠ .teardown) : EngineKept s t := by
  cases i <;> first | contradiction | (cases h; exact ⟨rfl, rfl, rfl, rfl, rfl, rfl⟩)

/-- ERR_FSM is changed by no instruction. -/
theorem exec_errFsm {t : State} {i : Instr} (h : exec i s = .next t) : t.errFsm = s.errFsm := by
  cases i with
  | start =>
    by_cases hp : s.phase = .idle
    · rw [exec_start_idle s hp] at h; cases h; rfl
    · rw [exec_start_running s hp] at h; cases h; rfl
  | _ => cases h; rfl

/-- No command reads what enc_pat showed (41_encoder_rom.md R105): its next state is the same but for it. -/
theorem exec_withEncPat {t : State} {w : CmdWord} (p : Pattern)
    (h : exec (decodeCmd w) s = .next t) :
    exec (decodeCmd w) { s with encPat := p } = .next { t with encPat := p } := by
  have key : ∀ i : Instr, (∀ c, i ≠ .encode c) → exec i s = .next t →
      exec i { s with encPat := p } = .next { t with encPat := p } := by
    intro i hi h
    cases i with
    | encode c => exact absurd rfl (hi c)
    | start =>
      by_cases hp : s.phase = .idle
      · rw [exec_start_idle s hp] at h; cases h
        exact exec_start_idle { s with encPat := p } hp
      · rw [exec_start_running s hp] at h; cases h
        exact exec_start_running { s with encPat := p } hp
    | _ => cases h; rfl
  refine key _ (fun c hc => ?_) h
  unfold decodeCmd at hc
  split at hc <;> cases hc

/-- LATCH is written by TEARDOWN, which clears it, and by no other instruction. -/
theorem exec_latch {t : State} {i : Instr} (h : exec i s = .next t) :
    t.latch = if i = .teardown then 0#8 else s.latch := by
  cases i with
  | start =>
    by_cases hp : s.phase = .idle
    · rw [exec_start_idle s hp] at h; cases h; rfl
    · rw [exec_start_running s hp] at h; cases h; rfl
  | _ => cases h; rfl

end Sys2Proof.Machine
end

