-- ==== Sys2Proof/Laws/PerInstr.lean ====
section
/-! SUPPORT. A law of every instruction as syntax: the encoder's word selects the instruction's own row of
opcode_table.json (30_encoding.md section 4) and has RSV 0 (R70, R76). -/

namespace Sys2Proof.Laws

/-- The bits of a built word under the mask of a row of the eight commands: the opcode alone. -/
theorem cmdWord_and_opcode_mask (op : BitVec 4) (pos : DigitPosition) (v : Bool) (data : CharWord) :
    cmdWord op pos v data &&& 0xF000000000#40 = cmdWord op 0 false 0#32 := by
  apply BitVec.eq_of_getLsbD_eq
  intro i hi
  rw [BitVec.getLsbD_and, getLsbD_cmdWord, getLsbD_cmdWord]
  by_cases h : i < 36
  · have hm : (0xF000000000#40).getLsbD i = false := by
      interval_cases i <;> rfl
    have hz : (BitVec.ofNat 2 (0 : DigitPosition).val).getLsbD (i - 34) = false := by
      simp
    rw [hm, Bool.and_false, hz]
    simp [h]
  · have hm : (0xF000000000#40).getLsbD i = true := by
      interval_cases i <;> rfl
    have h1 : ¬ i < 32 := by omega
    have h2 : ¬ i = 32 := by omega
    have h3 : ¬ i = 33 := by omega
    simp [hm, h, h1, h2, h3]

/-- RSV is 0 in a built word (30_encoding.md R70). -/
theorem cmdWord_rsv (op : BitVec 4) (pos : DigitPosition) (v : Bool) (data : CharWord) :
    (cmdWord op pos v data).getLsbD 32 = false := by
  rw [getLsbD_cmdWord]
  simp

/-- A built word selects the row with its opcode. -/
theorem cmdWord_selects (m : String) (op : BitVec 4) (pos : DigitPosition) (v : Bool) (data : CharWord)
    (value : CmdWord) (h : cmdWord op 0 false 0#32 = value) :
    (TableRow.mk m 0xF000000000 value).selects (cmdWord op pos v data) = true := by
  unfold TableRow.selects
  rw [beq_iff_eq]
  exact (cmdWord_and_opcode_mask op pos v data).trans h

namespace TableRowOf

/-- The instruction's word selects a row of its own mnemonic, with RSV 0; a lookup's code goes on the
ENCODE port. -/
def Statement (i : Instr) : Prop :=
  i.wellFormed = true →
    match encode i with
    | .cmd w => (∃ r ∈ cmdTable, r.mnemonic = i.mnemonic ∧ r.selects w = true) ∧ w.getLsbD 32 = false
    | .encChar _ => i.mnemonic = "ENCODE"

theorem nop : Statement .nop := fun _ =>
  ⟨⟨⟨"NOP", 0xF000000000, 0x0000000000⟩, by decide, rfl, cmdWord_selects _ _ _ _ _ _ rfl⟩,
    cmdWord_rsv _ _ _ _⟩

theorem clear : Statement .clear := fun _ =>
  ⟨⟨⟨"CLEAR", 0xF000000000, 0x1000000000⟩, by decide, rfl, cmdWord_selects _ _ _ _ _ _ rfl⟩,
    cmdWord_rsv _ _ _ _⟩

theorem setdig (pos : DigitPosition) (pat : Pattern) : Statement (.setdig pos pat) := fun _ =>
  ⟨⟨⟨"SETDIG", 0xF000000000, 0x2000000000⟩, by decide, rfl, cmdWord_selects _ _ _ _ _ _ rfl⟩,
    cmdWord_rsv _ _ _ _⟩

theorem setpt (pos : DigitPosition) (v : Bool) : Statement (.setpt pos v) := fun _ =>
  ⟨⟨⟨"SETPT", 0xF000000000, 0x3000000000⟩, by decide, rfl, cmdWord_selects _ _ _ _ _ _ rfl⟩,
    cmdWord_rsv _ _ _ _⟩

theorem setstr (c0 c1 c2 c3 : CharCode) : Statement (.setstr c0 c1 c2 c3) := fun _ =>
  ⟨⟨⟨"SETSTR", 0xF000000000, 0x4000000000⟩, by decide, rfl, cmdWord_selects _ _ _ _ _ _ rfl⟩,
    cmdWord_rsv _ _ _ _⟩

theorem start : Statement .start := fun _ =>
  ⟨⟨⟨"START", 0xF000000000, 0x5000000000⟩, by decide, rfl, cmdWord_selects _ _ _ _ _ _ rfl⟩,
    cmdWord_rsv _ _ _ _⟩

theorem stop : Statement .stop := fun _ =>
  ⟨⟨⟨"STOP", 0xF000000000, 0x6000000000⟩, by decide, rfl, cmdWord_selects _ _ _ _ _ _ rfl⟩,
    cmdWord_rsv _ _ _ _⟩

theorem teardown : Statement .teardown := fun _ =>
  ⟨⟨⟨"TEARDOWN", 0xF000000000, 0x7000000000⟩, by decide, rfl, cmdWord_selects _ _ _ _ _ _ rfl⟩,
    cmdWord_rsv _ _ _ _⟩

theorem reserved (op : BitVec 4) : Statement (.reserved op) := by
  intro h
  refine ⟨⟨⟨"RESERVED", 0x8000000000, 0x8000000000⟩, by decide, rfl, ?_⟩, cmdWord_rsv _ _ _ _⟩
  revert h
  revert op
  decide

theorem encode (c : CharCode) : Statement (.encode c) := fun _ => rfl

end TableRowOf
end Sys2Proof.Laws
end

