-- ==== Sys2Proof/Laws/Step.lean ====
section
/-! SUPPORT. What a step can do, once: reset, a fault before the first reset, a cycle with no command, a cycle
with an accepted one (43_refresh_engine.md R160); and runs of several steps. -/

namespace Sys2Proof.Machine

variable (s : State)

@[simp] theorem served_segRow (d : DigitPosition) : s.served.segRow d = s.segRow d := rfl
@[simp] theorem served_point (d : DigitPosition) : s.served.point d = s.point d := rfl
@[simp] theorem served_lineRow (d : DigitPosition) : s.served.lineRow d = s.lineRow d := rfl

theorem step_eq_clockEdge : step s = clockEdge exec s s.served := rfl

/-- A cycle with rst = 1 (70_reset_and_hazards.md R200). -/
theorem step_reset (h : s.presented.rst = true) : step s = .next s.served.resetRegisters := by
  simp [step_eq_clockEdge, clockEdge, h]

/-- A command before the first reset (R202). -/
theorem step_beforeReset (hr : s.presented.rst = false) (hs : s.resetSeen = false)
    (hv : s.presented.cmdValid = true) : step s = .fault .commandBeforeReset := by
  simp [step_eq_clockEdge, clockEdge, hr, hs, hv]

/-- A cycle in which no command is accepted. -/
theorem step_noCommand (hr : s.presented.rst = false)
    (hs : s.resetSeen = true ∨ s.presented.cmdValid = false) (ha : s.accepts = false) :
    step s = .next (innerEdge s.served) := by
  rcases hs with hs | hs <;> simp [step_eq_clockEdge, clockEdge, commandEdge, hr, hs, ha]

/-- A cycle in which a command is accepted. -/
theorem step_accepts (hs : s.resetSeen = true) (ha : s.accepts = true) :
    step s = exec (decodeCmd s.presented.cmd) (engineEdge s.served) := by
  have hb : s.presented.rst = false ∧ s.busy = false := by
    simp [State.accepts, State.cmdReady] at ha
    exact ha.2
  have hq : sequencerEdge (engineEdge s.served) = engineEdge s.served :=
    sequencerEdge_ready _ (by simpa using hb.2)
  simp [step_eq_clockEdge, clockEdge, commandEdge, hb.1, hs, ha, innerEdge, hq, decode]

/-- What a command that is accepted needs (30_encoding.md R72, R73). -/
theorem accepts_iff :
    s.accepts = true ↔
      s.presented.cmdValid = true ∧ s.presented.rst = false ∧ s.busy = false := by
  simp [State.accepts, State.cmdReady]

/-- Everything a step can do. -/
theorem step_cases {t : State} (h : step s = .next t) :
    (s.presented.rst = true ∧ t = s.served.resetRegisters) ∨
    (s.presented.rst = false ∧ s.accepts = false ∧ t = innerEdge s.served) ∨
    (s.presented.rst = false ∧ s.resetSeen = true ∧ s.accepts = true ∧ s.busy = false ∧
      exec (decodeCmd s.presented.cmd) (engineEdge s.served) = .next t) := by
  cases hr : s.presented.rst with
  | true =>
    rw [step_reset s hr] at h
    cases h
    exact .inl ⟨rfl, rfl⟩
  | false =>
    right
    cases hs : s.resetSeen with
    | true =>
      cases ha : s.accepts with
      | true =>
        rw [step_accepts s hs ha] at h
        exact .inr ⟨rfl, rfl, rfl, ((accepts_iff s).1 ha).2.2, h⟩
      | false =>
        rw [step_noCommand s hr (.inl hs) ha] at h
        cases h
        exact .inl ⟨rfl, rfl, rfl⟩
    | false =>
      cases hv : s.presented.cmdValid with
      | true => rw [step_beforeReset s hr hs hv] at h; cases h
      | false =>
        have ha : s.accepts = false := by simp [State.accepts, hv]
        rw [step_noCommand s hr (.inr hv) ha] at h
        cases h
        exact .inl ⟨rfl, ha, rfl⟩

/-- After the first reset every step answers a next state. -/
theorem step_answers (hs : s.resetSeen = true) : ∃ t, step s = .next t := by
  cases hr : s.presented.rst with
  | true => exact ⟨_, step_reset s hr⟩
  | false =>
    cases ha : s.accepts with
    | true =>
      obtain ⟨t, ht, _⟩ := exec_answers (engineEdge s.served) (decodeCmd s.presented.cmd)
      exact ⟨t, by rw [step_accepts s hs ha, ht]⟩
    | false => exact ⟨_, step_noCommand s hr (.inl hs) ha⟩

@[simp] theorem innerEdge_cfg : (innerEdge s).cfg = s.cfg := by simp [innerEdge]
@[simp] theorem innerEdge_host : (innerEdge s).host = s.host := by simp [innerEdge]
@[simp] theorem innerEdge_encPat : (innerEdge s).encPat = s.encPat := by simp [innerEdge]
@[simp] theorem innerEdge_resetSeen : (innerEdge s).resetSeen = s.resetSeen := by simp [innerEdge]

/-- What every step does with the model's own fields: the parameters stay, the host's schedule moves on,
enc_pat is what the port showed, and the first reset stays seen. -/
theorem step_modelFields {t : State} (h : step s = .next t) :
    t.cfg = s.cfg ∧ t.host = s.host.tail ∧
    t.encPat = enc s.cfg.glyph s.presented.encChar ∧
    (s.resetSeen = true → t.resetSeen = true) := by
  rcases step_cases s h with ⟨_, rfl⟩ | ⟨_, _, rfl⟩ | ⟨_, _, _, _, he⟩
  · simp
  · simp
  · obtain ⟨u, hu, h1, h2, h3⟩ := exec_answers (engineEdge s.served) (decodeCmd s.presented.cmd)
    have hp := exec_encPat _ he
    rw [hu] at he
    cases he
    simp [h1, h2, h3, hp]

/-- What every step does with LATCH: a reset and an accepted TEARDOWN clear it, and else it is what the
engine's edge makes of it. -/
theorem step_latch {t : State} (h : step s = .next t) :
    t.latch =
      if s.presented.rst = true ∨ s.AcceptsCommand .teardown then 0#8 else (engineEdge s).latch := by
  have he : (engineEdge s.served).latch = (engineEdge s).latch := by rw [engineEdge_served]
  rcases step_cases s h with ⟨hr, rfl⟩ | ⟨hr, ha, rfl⟩ | ⟨hr, _, ha, _, hx⟩
  · simp [hr]
  · simp [hr, State.AcceptsCommand, ha, innerEdge, he]
  · rw [exec_latch _ hx, he]
    simp [hr, State.AcceptsCommand, ha]

/-- The edges do not read what enc_pat showed. -/
theorem innerEdge_withEncPat (p : Pattern) :
    innerEdge { s with encPat := p } = { innerEdge s with encPat := p } := by
  unfold innerEdge
  rw [engineEdge_withEncPat, sequencerEdge_withEncPat]

/-- The engine's and the sequencer's edges while the sequencer is not busy. -/
theorem innerEdge_ready (h : s.busy = false) : innerEdge s = engineEdge s := by
  unfold innerEdge
  rw [sequencerEdge_ready]
  simpa using h

/-- The engine's and the sequencer's edges while it is busy (42_buffer_commands.md R125). -/
theorem innerEdge_busy_spec (h : s.busy = true) :
    (innerEdge s).busy = !decide (s.wrIdx = 3) ∧
    (innerEdge s).wrIdx = (if s.wrIdx = 3 then 0 else s.wrIdx + 1) ∧
    (innerEdge s).wrChars = s.wrChars ∧ (∀ d, (innerEdge s).point d = s.point d) ∧
    ∀ d, (innerEdge s).segRow d =
      if d = s.wrIdx then enc s.cfg.glyph (charAt s.wrChars s.wrIdx) else s.segRow d := by
  have sp := sequencerEdge_busy_spec (engineEdge s) (by simpa using h)
  simp only [engineEdge_wrIdx, engineEdge_cfg, engineEdge_wrChars, engineEdge_segRow] at sp
  exact ⟨sp.1, sp.2.1, by simp [innerEdge], fun d => by simp [innerEdge], sp.2.2⟩

/-- A cycle with the sequencer busy accepts no command (30_encoding.md R73). -/
theorem step_busy (hs : s.resetSeen = true) (hr : s.presented.rst = false) (h : s.busy = true) :
    step s = .next (innerEdge s.served) :=
  step_noCommand s hr (.inl hs) (by simp [State.accepts, State.cmdReady, h])

/-- With none of START, STOP and TEARDOWN accepted a step leaves in the engine's registers what the
engine's own edge writes there (43_refresh_engine.md R160). -/
theorem step_engineKept (hs : s.resetSeen = true) (hr : s.presented.rst = false)
    (hn : s.NoEngineCommand) :
    ∃ t, step s = .next t ∧ EngineKept (engineEdge s) t ∧ t.errFsm = (engineEdge s).errFsm := by
  have hq : EngineKept (engineEdge s) (engineEdge s.served) ∧
      (engineEdge s.served).errFsm = (engineEdge s).errFsm := by
    rw [engineEdge_served]
    exact ⟨⟨rfl, rfl, rfl, rfl, rfl, rfl⟩, rfl⟩
  cases ha : s.accepts with
  | false =>
    refine ⟨_, step_noCommand s hr (.inl hs) ha, ?_⟩
    unfold innerEdge
    simpa [EngineKept] using hq
  | true =>
    rw [step_accepts s hs ha]
    obtain ⟨t, ht, _⟩ := exec_answers (engineEdge s.served) (decodeCmd s.presented.cmd)
    obtain ⟨b1, b2, b3, b4, b5, b6⟩ := exec_engineKept _ ht (fun e => hn.1 ⟨ha, e⟩)
      (fun e => hn.2.1 ⟨ha, e⟩) (fun e => hn.2.2 ⟨ha, e⟩)
    obtain ⟨⟨a1, a2, a3, a4, a5, a6⟩, a7⟩ := hq
    exact ⟨t, ht, ⟨b1.trans a1, b2.trans a2, b3.trans a3, b4.trans a4, b5.trans a5, b6.trans a6⟩,
      (exec_errFsm _ ht).trans a7⟩

/-- A run of no cycles. -/
theorem reaches_zero {t : State} : Reaches 0 s t ↔ t = s := by
  constructor
  · intro h; cases h; rfl
  · rintro rfl; rfl

/-- A run of any machine behind the host's interface is its first step and then the rest. -/
theorem run_succ_iff (M : Host.Core) (n : Nat) (s t : M.State) :
    M.run (n + 1) s = .next t ↔ ∃ u, M.step s = .next u ∧ M.run n u = .next t := by
  have hrun : M.run (n + 1) s = (match M.step s with
    | .next s' => M.run n s'
    | .fault r => .fault r
    | .refused r => .refused r) := rfl
  rw [hrun]
  cases M.step s <;> simp

/-- A run is its first cycle and then the rest. -/
theorem reaches_succ {n : Nat} {t : State} :
    Reaches (n + 1) s t ↔ ∃ u, step s = .next u ∧ Reaches n u t :=
  run_succ_iff Sys2Proof.core n s t

/-- Two runs one after the other are one run. -/
theorem reaches_add {m n : Nat} {t u : State} (h1 : Reaches m s t) (h2 : Reaches n t u) :
    Reaches (m + n) s u := by
  induction m generalizing s with
  | zero => rw [(reaches_zero s).1 h1] at h2; simpa using h2
  | succ m ih =>
    obtain ⟨v, hv, hr⟩ := (reaches_succ s).1 h1
    rw [Nat.succ_add]
    exact (reaches_succ s).2 ⟨v, hv, ih v hr⟩

/-- A run has one end. -/
theorem reaches_unique {n : Nat} {t u : State} (h1 : Reaches n s t) (h2 : Reaches n s u) :
    t = u := by
  unfold Reaches at h1 h2
  rw [h1] at h2
  cases h2
  rfl

end Sys2Proof.Machine
end

