-- ==== Sys2Proof/Tests/Slice0.lean ====
section
/-! SUPPORT. Tests of single steps on small states, each from the vector of spec/95_test_vectors.md (or the rule) its
comment names, and for every obligation with hypotheses a state and operands that meet them together. -/

namespace Sys2Proof.Machine.Slice0

/-! ## States the tests start from -/

/-- DWELL_CYCLES = 3, both on levels 1, and the default GLYPH: the conventions of 95 section "Conventions". -/
def config : Config :=
  { dw := 20, reload := 2#20, digitOnLevel := true, segOnLevel := true, fClk := 1000
    glyph := standardGlyphs }

/-- The reset state with that parameter set. -/
def resetState : State := { State.reset with cfg := config }

/-- A running engine: SEG {06,5B,4F,66}, PT {0,1,0,0}, RUN 1, in the phase and at the digit given. -/
def running (p : Phase) (d : DigitPosition) : State :=
  { resetState with
    seg := ⟨0x06#7, 0x5B#7, 0x4F#7, 0x66#7⟩, pt := ⟨false, true, false, false⟩, phase := p, dig := d
    run := true }

/-- SEG_ON of digit 1 with its latch and a dwell count. -/
def lit (count : Nat) : State := { running .segOn 1 with latch := 0xDB#8, dwellCnt := count }

/-- The sequencer busy, about to write row `d` of "1234". -/
def busyAt (d : DigitPosition) : State :=
  { resetState with busy := true, wrIdx := d, wrChars := 0x31323334#32 }

/-- A command word presented in this cycle. -/
def withCmd (s : State) (w : CmdWord) : State := s.presentWord (.cmd w)

/-- A cycle with rst = 1, a command word presented as well. -/
def withReset (s : State) (w : CmdWord) : State :=
  s.present { Inputs.idle with rst := true, cmdValid := true, cmd := w }

/-- A schedule of commands in consecutive cycles. -/
def withCmds (s : State) (ws : List CmdWord) : State :=
  { s with host := ws.map fun w => { Inputs.idle with cmdValid := true, cmd := w } }

/-- The state a step leads to, where it answers one. -/
def next (s : State) : State :=
  match step s with
  | .next t => t
  | .fault _ => s
  | .refused _ => s

/-- A step answers a next state. -/
def runs (s : State) : Bool :=
  match step s with
  | .next _ => true
  | .fault _ => false
  | .refused _ => false

theorem step_next {s : State} (h : runs s = true) : step s = .next (next s) := by
  unfold runs at h
  unfold next
  cases hs : step s <;> simp [hs] at h ⊢

/-! ## Well-formedness, and decoding of words written out bit by bit (30_encoding.md R70, R75) -/

theorem test_wellFormed_refuses_assigned_opcode : (Instr.reserved 0x3#4).wellFormed = false := by decide
theorem test_wellFormed_refuses_opcode_seven : (Instr.reserved 0x7#4).wellFormed = false := by decide
theorem test_wellFormed_takes_reserved : (Instr.reserved 0x8#4).wellFormed = true := by decide

-- OP, POS, V, RSV, DATA
theorem test_decode_nop :
    decodeCmd 0b0000_00_0_0_00000000_00000000_00000000_00000000 = .nop := by decide
theorem test_decode_clear :
    decodeCmd 0b0001_11_1_1_11111111_11111111_11111111_11111111 = .clear := by decide
theorem test_decode_setdig :
    decodeCmd 0b0010_10_0_0_00000000_00000000_00000000_0_1011011 = .setdig 2 0b1011011#7 := by decide
theorem test_decode_setdig_ignores :
    decodeCmd 0b0010_00_1_1_11111111_11111111_11111111_1_0000000 = .setdig 0 0#7 := by decide
theorem test_decode_setpt_on :
    decodeCmd 0b0011_01_1_0_00000000_00000000_00000000_00000000 = .setpt 1 true := by decide
theorem test_decode_setpt_off :
    decodeCmd 0b0011_11_0_1_11111111_11111111_11111111_11111111 = .setpt 3 false := by decide
theorem test_decode_setstr :
    decodeCmd 0b0100_00_0_0_00110001_00110010_00110011_00110100 =
      .setstr 0x31#8 0x32#8 0x33#8 0x34#8 := by decide
theorem test_decode_start :
    decodeCmd 0b0101_00_0_0_00000000_00000000_00000000_00000000 = .start := by decide
theorem test_decode_stop :
    decodeCmd 0b0110_00_0_0_00000000_00000000_00000000_00000000 = .stop := by decide
theorem test_decode_teardown :
    decodeCmd 0b0111_00_0_0_00000000_00000000_00000000_00000000 = .teardown := by decide
theorem test_decode_reserved_first :
    decodeCmd 0b1000_01_1_0_00100011_01000101_01100111_10001001 = .reserved 0x8#4 := by decide
theorem test_decode_reserved_last :
    decodeCmd 0b1111_00_0_0_00000000_00000000_00000000_00000000 = .reserved 0xF#4 := by decide
theorem test_decode_encode_port : decodeTableWord 8 0b00111000 = some (.encode 0b00111000#8) := by decide
theorem test_decode_no_port : decodeBits 41 0 = .error (.noPortOfWidth 41) := by decide
theorem test_decode_bits_above : decodeTableWord 8 0x100 = none := by decide
theorem test_encode_setstr :
    encode (.setstr 0x31#8 0x32#8 0x33#8 0x34#8) =
      .cmd 0b0100_00_0_0_00110001_00110010_00110011_00110100 := by decide
theorem test_encode_setpt :
    encode (.setpt 1 true) = .cmd 0b0011_01_1_0_00000000_00000000_00000000_00000000 := by decide

/-! ## The encoder (95 section 2.1) -/

theorem test_enc_fixed : ([0x20, 0x31, 0x38] : List CharCode).map (enc config.glyph) =
    [0x00#7, 0x06#7, 0x7F#7] := by decide
theorem test_enc_edges_blank :
    ∀ c ∈ ([0x2F, 0x3A, 0x40, 0x47, 0x5A, 0x60, 0x67, 0x7A, 0x7B, 0xB1, 0xE1, 0xFF] : List CharCode),
      enc config.glyph c = 0#7 := by decide
theorem test_enc_case : ([0x61, 0x63, 0x66] : List CharCode).map (enc config.glyph) =
    [0x77#7, 0x39#7, 0x71#7] := by decide

/-! ## The instructions, one step each (95 sections 2.2 to 2.11) -/

-- 2.2, second row: an accepted NOP is the engine's step alone
theorem test_nop_engine_steps : (next (withCmd (lit 3) 0x0000000000)).dwellCnt = 2 := by decide
-- 2.2, fourth row: the fields are ignored
theorem test_nop_ignores_fields :
    (next (withCmd (running .idle 0) 0x0FFFFFFFFF)).seg = (running .idle 0).seg := by decide
-- 2.3, third row: CLEAR leaves the latch, so the digit stays lit
theorem test_clear_keeps_latch :
    (next (withCmd (lit 1) 0x1000000000)).latch = 0xDB#8 ∧
    (next (withCmd (lit 1) 0x1000000000)).seg = ⟨0#7, 0#7, 0#7, 0#7⟩ := by decide
-- 2.3, first row: the points go too
theorem test_clear_points :
    (next (withCmd (running .idle 0) 0x1000000000)).pt = ⟨false, false, false, false⟩ := by decide
-- 2.4, first row
theorem test_setdig_row :
    (next (withCmd resetState 0x280000005B)).seg = ⟨0#7, 0#7, 0x5B#7, 0#7⟩ := by decide
-- 2.4, last row: the latch takes the old row at the same edge
theorem test_setdig_latch_takes_old_row :
    (next (withCmd (running .digOn 0) 0x200000004F)).latch = 0x06#8 ∧
    (next (withCmd (running .digOn 0) 0x200000004F)).segRow 0 = 0x4F#7 := by decide
-- 2.5, first row
theorem test_setpt_point :
    (next (withCmd resetState 0x3600000000)).pt = ⟨false, true, false, false⟩ := by decide
-- 2.5, sixth row: the fields are ignored
theorem test_setpt_ignores_data :
    (next (withCmd resetState 0x3FFFFFFFFF)).pt = ⟨false, false, false, true⟩ ∧
    (next (withCmd resetState 0x3FFFFFFFFF)).seg = ⟨0#7, 0#7, 0#7, 0#7⟩ := by decide
-- 2.6, "abcd", first edge
theorem test_setstr_first_edge :
    (next (withCmd resetState 0x4061626364)).seg = ⟨0x77#7, 0#7, 0#7, 0#7⟩ ∧
    (next (withCmd resetState 0x4061626364)).wrIdx = 1 ∧
    (next (withCmd resetState 0x4061626364)).busy = true := by decide
-- 2.6, "1234": the last edge of the sequencer
theorem test_setstr_last_edge :
    (next (busyAt 3)).segRow 3 = 0x66#7 ∧ (next (busyAt 3)).wrIdx = 0 ∧
    (next (busyAt 3)).busy = false ∧ (next (busyAt 3)).wrChars = 0x31323334#32 := by decide
-- 2.8, last row: an unreachable PHASE and a START at one edge
theorem test_start_from_unreachable :
    (next (withCmd (running (.unreachable 1) 2) 0x5000000000)).phase = .digOn ∧
    (next (withCmd (running (.unreachable 1) 2) 0x5000000000)).run = true ∧
    (next (withCmd (running (.unreachable 1) 2) 0x5000000000)).errFsm = true := by decide
-- 2.8, first row
theorem test_start_from_reset :
    (next (withCmd resetState 0x5000000000)).phase = .digOn ∧
    (next (withCmd resetState 0x5000000000)).digLine = 0b0001#4 := by decide
-- 2.9, third row: the edge reads the old RUN
theorem test_stop_in_last_cycle :
    (next (withCmd (running .digOff 3) 0x6000000000)).phase = .digOn ∧
    (next (withCmd (running .digOff 3) 0x6000000000)).run = false := by decide
-- 2.9, first row
theorem test_stop_mid_pass :
    (next (withCmd (lit 2) 0x6000000000)).phase = .segOn ∧
    (next (withCmd (lit 2) 0x6000000000)).run = false := by decide
-- 2.10, second row
theorem test_teardown_mid_dwell :
    (next (withCmd (lit 2) 0x7000000000)).phase = .idle ∧
    (next (withCmd (lit 2) 0x7000000000)).dig = 0 ∧
    (next (withCmd (lit 2) 0x7000000000)).dwellCnt = 0 ∧
    (next (withCmd (lit 2) 0x7000000000)).latch = 0#8 := by decide
-- 2.10, fourth row: the end of the pass is still counted
theorem test_teardown_counts_the_pass :
    (next (withCmd { running .digOff 3 with scanCount := 7#16 } 0x7000000000)).scanCount = 8#16 ∧
    (next (withCmd { running .digOff 3 with scanCount := 7#16 } 0x7000000000)).run = false := by decide
-- 2.11, first row
theorem test_reserved_status :
    (next (withCmd resetState 0x9000000000)).status = 0x00000080#32 := by decide
-- 2.11, second row: the engine steps as usual
theorem test_reserved_engine_steps :
    (next (withCmd (lit 2) 0xF000000000)).dwellCnt = 1 := by decide
-- 2.1: '8' on the ENCODE port, and a lookup in the cycle of a SETSTR
theorem test_encode_shows_pattern : (next (resetState.presentWord (.encChar 0x38#8))).encPat = 0x7F#7 := by
  decide
theorem test_encode_beside_setstr :
    (next ((withCmd resetState 0x4031323334).presentWord (.encChar 0x38#8))).encPat = 0x7F#7 ∧
    (next ((withCmd resetState 0x4031323334).presentWord (.encChar 0x38#8))).segRow 0 = 0x06#7 := by decide

/-! ## Engine, ports and reset (95 sections 2.7, 2.12 to 2.14) -/

theorem test_digOn_load :
    (next (running .digOn 1)).latch = 0xDB#8 ∧ (next (running .digOn 1)).dwellCnt = 2 := by decide
theorem test_segOn_ends : (next (lit 0)).phase = .segOff ∧ (next (lit 0)).latch = 0#8 := by decide
theorem test_digOff_next_digit :
    (next (running .digOff 2)).phase = .digOn ∧ (next (running .digOff 2)).dig = 3 := by decide
theorem test_scanCount_wraps :
    (next { running .digOff 3 with scanCount := 0xFFFF#16 }).scanCount = 0#16 := by decide
theorem test_unreachable_phase :
    (next { running (.unreachable 0) 2 with dwellCnt := 7, latch := 0x55#8 }).phase = .idle ∧
    (next { running (.unreachable 0) 2 with dwellCnt := 7, latch := 0x55#8 }).errFsm = true := by decide
-- DWELL_CYCLES = 2^DW: the count is all ones
theorem test_largest_dwell :
    (next { running .digOn 0 with cfg := { config with dw := 2, reload := 3#2 } }).dwellCnt = 3 := by decide
theorem test_status_word :
    { running .segOn 2 with scanCount := 3#16 }.status = 0x00030025#32 ∧
    { resetState with errIllegal := true, errFsm := true, scanCount := 2#16 }.status =
      0x00020180#32 := by decide
theorem test_polarity :
    { lit 0 with cfg := { config with digitOnLevel := false, segOnLevel := false } }.digLine = 0b1101#4 ∧
    { lit 0 with cfg := { config with digitOnLevel := false, segOnLevel := false } }.segLine =
      0x24#8 := by decide
theorem test_readback :
    ((running .idle 0).present { Inputs.idle with rdPos := 1 }).outputs.rdSeg = 0x5B#7 ∧
    ((running .idle 0).present { Inputs.idle with rdPos := 1 }).outputs.rdPt = true := by decide
theorem test_reset_overrides_start :
    (next (withReset (lit 2) 0x5000000000)).phase = .idle ∧
    (next (withReset (lit 2) 0x5000000000)).run = false ∧
    (withReset (lit 2) 0x5000000000).cmdReady = false := by decide
theorem test_busy_drops_command :
    (next (withCmd (busyAt 1) 0x1000000000)).segRow 1 = 0x5B#7 ∧
    (next (withCmd (busyAt 1) 0x1000000000)).wrIdx = 2 := by decide
-- R7: no parameter set has DWELL_CYCLES = 0; R6: nor one above 2^DW
theorem test_no_zero_dwell : buildConfig 20 0 true true 1 standardGlyphs = none := by decide
theorem test_no_dwell_above_width : buildConfig 2 5 true true 1 standardGlyphs = none := by decide
theorem test_first_instruction_after_reset :
    (next (State.reset.withFetchWord 40 0x9000000000)).errIllegal = true := by decide

/-! ## The assembler (30_encoding.md R79, R80) -/

/-- The word a program of one line presents first, if there is one. -/
def firstWord (line : List Char) : Option CmdWord :=
  match assembleText [line] with
  | .ok (i :: _) => if i.cmdValid then some i.cmd else none
  | .ok [] => none
  | .error _ => none

theorem test_asm_setdig : firstWord "setdig 2, 0x5B ; two".toList = some 0x280000005B := by decide
theorem test_asm_setstr : firstWord "SETSTR \"12\\x33\\\\\"".toList = some 0x403132335C := by decide
theorem test_asm_show :
    assembleText ["SHOW \"1234\"".toList] =
      .ok [{ Inputs.idle with cmdValid := true, cmd := 0x4031323334 }, Inputs.idle, Inputs.idle,
        Inputs.idle] := by decide
theorem test_asm_refuses_pos : assembleText ["SETPT 4, 1".toList] = .error .positionOutOfRange := by decide

/-! ## Witnesses: what the hypotheses of each obligation are met by -/

theorem witness_DecodeUndoesEncode :
    (Instr.reserved 0x8#4).wellFormed = true ∧ (Instr.reserved 0xF#4).wellFormed = true ∧
    (Instr.setdig 3 0x7F#7).wellFormed = true := by decide
theorem witness_OperandsStandWhereTheFormatSays :
    (0x2FFFFFFFFF#40).toNat / 2 ^ 36 = 2 ∧ (0x3000000000#40).toNat / 2 ^ 36 = 3 ∧
    (0x4FFFFFFFFF#40).toNat / 2 ^ 36 = 4 := by decide
theorem witness_IgnoredFieldsHaveNoEffect :
    (0x2BFFFFFFDB#40) &&& usedBits (opcodeOf 0x2BFFFFFFDB#40) =
      (0x280000005B#40) &&& usedBits (opcodeOf 0x280000005B#40) := by decide
theorem witness_StepRunsTheDecodedInstruction :
    ((withCmd (lit 2) 0x6000000000).resetSeen = true ∧ (withCmd (lit 2) 0x6000000000).accepts = true) ∧
    ((withCmd (busyAt 1) 0x1000000000).resetSeen = true ∧
      (withCmd (busyAt 1) 0x1000000000).presented.rst = false ∧
      (withCmd (busyAt 1) 0x1000000000).accepts = false) ∧
    ((lit 2).resetSeen = true ∧ (lit 2).busy = false) := by decide
theorem witness_CommandNotReadyIsDropped :
    ((withCmd (busyAt 1) 0x1000000000).resetSeen = true ∧
      (withCmd (busyAt 1) 0x1000000000).cmdReady = false) ∧
    ((withReset (lit 2) 0x5000000000).resetSeen = true ∧
      (withReset (lit 2) 0x5000000000).cmdReady = false) ∧
    ((busyAt 1).resetSeen = true ∧ ((busyAt 1).busy = true → (busyAt 1).wrIdx ≠ 0) ∧
      ∀ i ∈ (busyAt 1).host.take 4, i.rst = false) := by decide
theorem witness_BlockNeverHalts : (running (.unreachable 2) 3).resetSeen = true := by decide
theorem witness_QuiescentStateStays :
    { resetState with run := true, scanCount := 9#16 }.Quiescent ∧
    ∀ i ∈ { resetState with run := true, scanCount := 9#16 }.host.take 5,
      i.rst = false ∧ i.cmdValid = false := by decide
theorem witness_NopWritesNothing :
    opcodeOf 0x0FFFFFFFFF = 0x0#4 ∧ (withCmd (lit 2) 0x0FFFFFFFFF).resetSeen = true ∧
    (withCmd (lit 2) 0x0FFFFFFFFF).AcceptsCommand .nop := by decide
theorem witness_ClearBlanksEveryCell :
    opcodeOf 0x1FFFFFFFFF = 0x1#4 ∧
    ∀ d, { lit 2 with seg := PerDigit.const 0#7, pt := PerDigit.const false }.segRow d = 0#7 ∧
      { lit 2 with seg := PerDigit.const 0#7, pt := PerDigit.const false }.point d = false := by decide
theorem witness_SetdigWritesItsRow : opcodeOf 0x2FFFFFFFFF = 0x2#4 := by decide
theorem witness_SetptWritesItsPoint :
    opcodeOf 0x3FFFFFFFFF = 0x3#4 ∧ (lit 2).point 1 = true ∧
    exec (.setpt 2 true) (lit 2) = .next ((lit 2).writePoint 2 true) ∧
    exec (.setpt 2 false) ((lit 2).writePoint 2 true) =
      .next (((lit 2).writePoint 2 true).writePoint 2 false) := ⟨by decide, by decide, rfl, rfl⟩
theorem witness_SetstrWritesRowZeroAndStartsTheSequencer :
    opcodeOf 0x4F31323334 = 0x4#4 ∧ (busyAt 1).busy = true := by decide
theorem witness_StartRunsTheEngine :
    opcodeOf 0x5FFFFFFFFF = 0x5#4 ∧
    ((withCmd resetState 0x5000000000).resetSeen = true ∧
      (withCmd resetState 0x5000000000).AcceptsCommand .start ∧
      (withCmd resetState 0x5000000000).phase = .idle) ∧
    ((withCmd { running .digOff 3 with run := false } 0x5000000000).resetSeen = true ∧
      (withCmd { running .digOff 3 with run := false } 0x5000000000).AcceptsCommand .start ∧
      (withCmd { running .digOff 3 with run := false } 0x5000000000).phase = .digOff ∧
      (withCmd { running .digOff 3 with run := false } 0x5000000000).dig = 3) := by decide
theorem witness_StopClearsRun : opcodeOf 0x6FFFFFFFFF = 0x6#4 ∧ resetState.run = false := by decide
theorem witness_TeardownStopsAtOnce :
    opcodeOf 0x7FFFFFFFFF = 0x7#4 ∧
    ((withCmd (running .digOff 3) 0x7000000000).resetSeen = true ∧
      (withCmd (running .digOff 3) 0x7000000000).AcceptsCommand .teardown) ∧
    (withCmd (busyAt 3) 0x7000000000).busy = true := by decide
theorem witness_ReservedOpcodeOnlySetsErrIllegal :
    0x8#4 ≤ opcodeOf 0x8123456789 ∧ (withCmd (lit 2) 0xF000000000).resetSeen = true ∧
    (withCmd (lit 2) 0xF000000000).accepts = true ∧
    0x8#4 ≤ opcodeOf (withCmd (lit 2) 0xF000000000).presented.cmd := by decide
theorem witness_EncodePortShowsTheRom :
    (0x61 ≤ (0x61#8).toNat ∧ (0x61#8).toNat ≤ 0x66) ∧ (0x61 ≤ (0x66#8).toNat ∧ (0x66#8).toNat ≤ 0x66) := by
  decide
theorem witness_EncodePortShowsTheRom_step :
    step (withCmd (lit 2) 0x4031323334) = .next (next (withCmd (lit 2) 0x4031323334)) :=
  step_next (by decide)
theorem witness_LookupIsRecorded :
    step (resetState.presentWord (.encChar 0x38#8)) =
      .next (next (resetState.presentWord (.encChar 0x38#8))) := step_next (by decide)
theorem witness_EncoderFollowsTheAlphabet :
    (0x61 ≤ (0x61#8).toNat ∧ (0x61#8).toNat ≤ 0x7A) ∧ (0x61 ≤ (0x7A#8).toNat ∧ (0x7A#8).toNat ≤ 0x7A) ∧
    ∀ c ∈ ([0x2F, 0x3A, 0x40, 0x47, 0x60, 0x67, 0x7B, 0x00, 0xFF] : List CharCode),
      c.toNat ≠ 0x20 ∧ c.toNat ≠ 0x2D ∧ ¬ (0x30 ≤ c.toNat ∧ c.toNat ≤ 0x39) ∧
      ¬ (0x41 ≤ c.toNat ∧ c.toNat ≤ 0x46) ∧ ¬ (0x61 ≤ c.toNat ∧ c.toNat ≤ 0x66) := by decide
theorem witness_RomIsNeverWritten :
    step (withCmd resetState 0x4031323334) = .next (next (withCmd resetState 0x4031323334)) ∧
    exec .clear resetState = .next resetState.clearBuffer := ⟨step_next (by decide), rfl⟩
theorem witness_SetstrWritesOneRowAnEdge :
    ((busyAt 3).resetSeen = true ∧ (busyAt 3).presented.rst = false ∧ (busyAt 3).busy = true) ∧
    (withCmd (lit 2) 0x4031323334).resetSeen = true ∧
    (withCmd (lit 2) 0x4031323334).AcceptsCommand (.setstr 0x31#8 0x32#8 0x33#8 0x34#8) ∧
    (∀ i ∈ (withCmd (lit 2) 0x4031323334).host.take 4, i.rst = false) := by decide
/-- The codes of "1234" by position. -/
def codes (d : DigitPosition) : CharCode := BitVec.ofNat 8 (0x31 + d.val)

/-- The four SETDIG of "1234" presented in four cycles. -/
def fourSetdigs : State :=
  withCmds (lit 2) [0x2000000006, 0x240000005B, 0x280000004F, 0x2C00000066]

theorem witness_SetstrEqualsFourSetdig :
    (withCmd (lit 2) 0x4031323334).AcceptsCommand (.setstr (codes 0) (codes 1) (codes 2) (codes 3)) ∧
    (∀ i ∈ (withCmd (lit 2) 0x4031323334).host.take 4, i.rst = false) ∧
    (withCmd (lit 2) 0x4031323334).resetSeen = true ∧
    fourSetdigs = { withCmd (lit 2) 0x4031323334 with host := fourSetdigs.host } ∧
    4 ≤ fourSetdigs.host.length ∧
    (∀ d : DigitPosition, ∀ i ∈ fourSetdigs.host[d.val]?,
      i.rst = false ∧ i.Calls (.setdig d (enc config.glyph (codes d)))) := by decide
theorem witness_BufferWritesAreIdempotent :
    exec (.setdig 1 0x55#7) (lit 2) = .next ((lit 2).writeRow 1 0x55#7) ∧
    exec (.setdig 1 0x55#7) ((lit 2).writeRow 1 0x55#7) = .next ((lit 2).writeRow 1 0x55#7) ∧
    exec .clear (lit 2) = .next (lit 2).clearBuffer ∧
    exec .clear (lit 2).clearBuffer = .next (lit 2).clearBuffer := ⟨rfl, rfl, rfl, rfl⟩
theorem witness_NothingElseWritesTheBuffer :
    step (withCmd (lit 2) 0x9000000000) = .next (next (withCmd (lit 2) 0x9000000000)) ∧
    (withCmd (lit 2) 0x9000000000).presented.rst = false ∧ (withCmd (lit 2) 0x9000000000).busy = false ∧
    ¬ (withCmd (lit 2) 0x9000000000).AcceptsBufferWrite :=
  ⟨step_next (by decide), by decide, by decide, by decide⟩
theorem witness_DigOnLoadsTheLatch :
    ((withCmd (running .digOn 1) 0x240000004F).resetSeen = true ∧
      (withCmd (running .digOn 1) 0x240000004F).presented.rst = false ∧
      (withCmd (running .digOn 1) 0x240000004F).NoEngineCommand ∧
      (withCmd (running .digOn 1) 0x240000004F).phase = .digOn) ∧
    (running .digOff 3).phase ≠ .digOn := by decide
theorem witness_SegOnHoldsForTheDwell :
    ((lit 0).resetSeen = true ∧ (lit 0).presented.rst = false ∧ (lit 0).NoEngineCommand ∧
      (lit 0).phase = .segOn) ∧
    ((lit 2).resetSeen = true ∧ (lit 2).presented.rst = false ∧ (lit 2).NoEngineCommand ∧
      (lit 2).phase = .segOn ∧ ∀ i ∈ (withCmd (lit 2) 0x6000000000).host.take 3, i.Uncut) ∧
    ((running .digOn 3).resetSeen = true ∧ (running .digOn 3).phase = .digOn ∧
      ∀ i ∈ (running .digOn 3).host.take ((running .digOn 3).cfg.dwellCycles + 1), i.Uncut) := by decide
theorem witness_SegOffLastsOneCycle :
    (running .segOff 0).resetSeen = true ∧ (running .segOff 0).presented.rst = false ∧
    (running .segOff 0).NoEngineCommand ∧ (running .segOff 0).phase = .segOff := by decide
theorem witness_DigOffGoesOnOrEndsThePass :
    ∀ d ∈ ([0, 2, 3] : List DigitPosition),
      ((running .digOff d).resetSeen = true ∧ (running .digOff d).presented.rst = false ∧
        (running .digOff d).NoEngineCommand ∧ (running .digOff d).phase = .digOff) ∧
      (d ≠ 3 → ¬ ((running .digOff d).phase = .digOff ∧ (running .digOff d).dig = 3)) ∧
      (∀ k, (running .digOff d).phase ≠ .unreachable k) := by decide
theorem witness_IdleIsLeftOnlyByStart :
    (withCmd resetState 0x5000000000).phase = .idle ∧
    step (withCmd resetState 0x5000000000) = .next (next (withCmd resetState 0x5000000000)) :=
  ⟨by decide, step_next (by decide)⟩
theorem witness_UnreachablePhaseRecovers :
    ∀ k : Fin 3, (running (.unreachable k) 2).resetSeen = true ∧
      (running (.unreachable k) 2).presented.rst = false ∧
      (running (.unreachable k) 2).NoEngineCommand ∧
      (running (.unreachable k) 2).phase = .unreachable k := by decide
theorem witness_DigitFollowsItsSchedule :
    (running .digOn 3).resetSeen = true ∧ (running .digOn 3).phase = .digOn ∧
    (∀ i ∈ (running .digOn 3).host.take (running .digOn 3).cfg.digitCycles, i.Uncut) ∧
    6 ≤ (running .digOn 3).cfg.digitCycles := by decide
theorem witness_ScanPassVisitsEachDigitOnce :
    (withCmd (running .digOn 0) 0x6000000000).resetSeen = true ∧
    (withCmd (running .digOn 0) 0x6000000000).phase = .digOn ∧
    (withCmd (running .digOn 0) 0x6000000000).dig = 0 ∧
    (∀ i ∈ (withCmd (running .digOn 0) 0x6000000000).host.take 24, i.Uncut) ∧
    4 * (config.dwellCycles + 3) = 24 ∧
    (∀ i ∈ (running .digOn 0).host.take 24, ¬ i.Calls .start ∧ ¬ i.Calls .stop) := by decide
theorem witness_DigitsDoNotBleed :
    (lit 0).digOn 1 = true ∧ (lit 0).segOn 0 = true ∧ (lit 0).resetSeen = true ∧
    (lit 0).phase = .segOn ∧ (lit 0).dwellCnt = 0 ∧ (∀ i ∈ (lit 0).host.take 3, i.Uncut) := by decide

/-- A SETDIG of digit 1 accepted in the DIG_ON cycle of that digit: the longest wait (95 section 3.5). -/
def lateWrite : State := withCmd (running .digOn 1) 0x2400000006

theorem witness_WriteIsSeenWithinOnePass :
    lateWrite.resetSeen = true ∧ lateWrite.Inv ∧ lateWrite.run = true ∧
    lateWrite.AcceptsCommand (.setdig 1 0x06#7) ∧
    (∀ i ∈ lateWrite.host.take (4 * lateWrite.cfg.digitCycles + 1), i.RunsOn) := by decide

/-- The same, with a point of another digit, its own point and another row written after it. -/
def lateWriteThenOthers : State :=
  withCmds (running .digOn 1) [0x2400000006, 0x3A00000000, 0x3400000000, 0x280000007F]

theorem witness_WriteIsSeen_notOverwritten :
    lateWriteThenOthers.AcceptsCommand (.setdig 1 0x06#7) ∧
    (∀ i ∈ lateWriteThenOthers.host.take 25, i.RunsOn) ∧
    ∀ i ∈ (lateWriteThenOthers.host.take 24).drop 1,
      i.cmdValid = true → writesRow 1 (decodeCmd i.cmd) = false := by decide
theorem witness_WriteIsSeen_setpt :
    (withCmd (lit 0) 0x3600000000).resetSeen = true ∧ (withCmd (lit 0) 0x3600000000).Inv ∧
    (withCmd (lit 0) 0x3600000000).run = true ∧
    (withCmd (lit 0) 0x3600000000).AcceptsCommand (.setpt 1 true) ∧
    (∀ i ∈ (withCmd (lit 0) 0x3600000000).host.take 25, i.RunsOn) ∧
    ∀ i ∈ ((withCmd (lit 0) 0x3600000000).host.take 24).drop 1,
      i.cmdValid = true → writesPoint 1 (decodeCmd i.cmd) = false := by decide
theorem witness_WriteIsSeen_clear :
    (withCmd (running .digOff 3) 0x1000000000).resetSeen = true ∧
    (withCmd (running .digOff 3) 0x1000000000).Inv ∧
    (withCmd (running .digOff 3) 0x1000000000).run = true ∧
    (withCmd (running .digOff 3) 0x1000000000).AcceptsCommand .clear ∧
    (∀ i ∈ (withCmd (running .digOff 3) 0x1000000000).host.take 25, i.RunsOn) ∧
    ∀ i ∈ ((withCmd (running .digOff 3) 0x1000000000).host.take 24).drop 1,
      i.cmdValid = true →
        (writesRow 0 (decodeCmd i.cmd) || writesPoint 0 (decodeCmd i.cmd)) = false := by decide

/-- A SETSTR accepted in DIG_OFF of digit 3, one edge before digit 0's load, with a CLEAR dropped while
the sequencer is busy, and a SETPT after it. -/
def lateString : State :=
  withCmds (running .digOff 3) [0x4031323334, 0x1000000000, 0x0000000000, 0x0000000000, 0x3600000000]

theorem witness_WriteIsSeen_setstr :
    lateString.resetSeen = true ∧ lateString.Inv ∧ lateString.run = true ∧
    (let c : DigitPosition → CharCode := fun d => charAt 0x31323334#32 d
     lateString.AcceptsCommand (.setstr (c 0) (c 1) (c 2) (c 3))) ∧
    (∀ d : DigitPosition, ∀ i ∈ lateString.host.take (d.val + 25), i.RunsOn) ∧
    ∀ d : DigitPosition, ∀ i ∈ (lateString.host.take (d.val + 24)).drop 4,
      i.cmdValid = true → writesRow d (decodeCmd i.cmd) = false := by decide

/-- A STOP accepted in the last cycle of a pass (95 section 3.4). -/
def lateStop : State := withCmd (running .digOff 3) 0x6000000000

/-- A START accepted in the last cycle of a stopping pass (95 section 2.8). -/
def stopping : State := withCmd { running .digOff 3 with run := false } 0x5000000000

theorem witness_StopHaltsWithinOnePass :
    opcodeOf 0x6FFFFFFFFF = 0x6#4 ∧
    (lateStop.resetSeen = true ∧ lateStop.AcceptsCommand .stop ∧ lateStop.phase = .digOff ∧
      lateStop.dig = 3 ∧ lateStop.run = true ∧ lateStop.Inv ∧
      (∀ i ∈ lateStop.host.tail.take (4 * lateStop.cfg.digitCycles), ¬ i.Calls .start)) ∧
    ((withCmd resetState 0x6000000000).resetSeen = true ∧ (withCmd resetState 0x6000000000).Inv ∧
      (withCmd resetState 0x6000000000).AcceptsCommand .stop ∧
      (withCmd resetState 0x6000000000).phase = .idle) := by decide
theorem witness_StopHalts_finishesThePass :
    Reaches 1 lateStop (next lateStop) ∧ (next lateStop).phase ≠ .idle ∧
    (∀ i ∈ lateStop.host.take 2, i.Uncut) ∧ (∀ i ∈ lateStop.host.tail.take 1, ¬ i.Calls .start) :=
  ⟨rfl, by decide, by decide, by decide⟩
theorem witness_SameEdge_setdig :
    lateWrite.resetSeen = true ∧ lateWrite.phase = .digOn ∧
    lateWrite.AcceptsCommand (.setdig lateWrite.dig 0x06#7) := by decide
theorem witness_SameEdge_endOfPass :
    (lateStop.resetSeen = true ∧ lateStop.phase = .digOff ∧ lateStop.dig = 3 ∧ lateStop.run = true ∧
      lateStop.AcceptsCommand .stop) ∧
    (stopping.resetSeen = true ∧ stopping.phase = .digOff ∧ stopping.dig = 3 ∧ stopping.run = false ∧
      stopping.AcceptsCommand .start) ∧
    (withCmd (running .digOff 3) 0x7000000000).AcceptsCommand .teardown := by decide
theorem witness_SameEdge_idle :
    ((withCmd resetState 0x6000000000).Inv ∧ (withCmd resetState 0x6000000000).phase = .idle ∧
      (withCmd resetState 0x6000000000).AcceptsCommand .stop) ∧
    ((withCmd resetState 0x7000000000).Inv ∧ (withCmd resetState 0x7000000000).dig = 0 ∧
      (withCmd resetState 0x7000000000).AcceptsCommand .teardown) := by decide
theorem witness_SameEdge_start :
    (withCmd (lit 2) 0x5000000000).Inv ∧ (withCmd (lit 2) 0x5000000000).phase ≠ .idle ∧
    ¬ ((withCmd (lit 2) 0x5000000000).phase = .digOff ∧ (withCmd (lit 2) 0x5000000000).dig = 3 ∧
      (withCmd (lit 2) 0x5000000000).run = false) ∧
    (withCmd (lit 2) 0x5000000000).AcceptsCommand .start := by decide
theorem witness_RegisterInvariantIsKept : (lit 2).Inv ∧ step (lit 2) = .next (next (lit 2)) :=
  ⟨by decide, step_next (by decide)⟩
theorem witness_RegisterInvariantHoldsAfterReset :
    (withReset (running (.unreachable 2) 3) 0#40).presented.rst = true ∧
    step (withReset (running (.unreachable 2) 3) 0#40) =
      .next (next (withReset (running (.unreachable 2) 3) 0#40)) := ⟨by decide, step_next (by decide)⟩
theorem witness_IndicesAndCounterStayInRange :
    ((busyAt 1).busy = true ↔ (busyAt 1).wrIdx ≠ 0) ∧ step (busyAt 1) = .next (next (busyAt 1)) ∧
    (resetState.phase = .idle → resetState.dig = 0) ∧
    (lateStop.dwellCnt < 2 ^ lateStop.cfg.dw) ∧ (next (withCmd (lit 2) 0x7000000000)).phase = .idle :=
  ⟨by decide, step_next (by decide), by decide, by decide, by decide⟩
theorem witness_ErrorFlagsAreSticky :
    ((withReset (lit 2) 0#40).presented.rst = true ∧
      step (withReset (lit 2) 0#40) = .next (next (withReset (lit 2) 0#40))) ∧
    ((withCmd (lit 2) 0x8000000000).presented.rst = false ∧
      step (withCmd (lit 2) 0x8000000000) = .next (next (withCmd (lit 2) 0x8000000000))) :=
  ⟨⟨by decide, step_next (by decide)⟩, by decide, step_next (by decide)⟩
theorem witness_ScanCountCountsPassesOnly : step lateStop = .next (next lateStop) :=
  step_next (by decide)
theorem witness_EngineStopsOnlyInListedWays :
    ∀ s ∈ [withCmd (lit 2) 0x7000000000, withReset (lit 2) 0#40, running (.unreachable 0) 1,
        { running .digOff 3 with run := false }],
      s.phase ≠ .idle ∧ step s = .next (next s) ∧ (next s).phase = .idle := by
  have h : ∀ s ∈ [withCmd (lit 2) 0x7000000000, withReset (lit 2) 0#40, running (.unreachable 0) 1,
        { running .digOff 3 with run := false }],
      s.phase ≠ .idle ∧ runs s = true ∧ (next s).phase = .idle := by decide
  exact fun s hs => ⟨(h s hs).1, step_next (h s hs).2.1, (h s hs).2.2⟩
theorem witness_RunFollowsItsCommands :
    ((withReset (lit 2) 0#40).presented.rst = true) ∧
    ((withCmd (lit 2) 0x5000000000).presented.rst = false ∧
      (withCmd (lit 2) 0x5000000000).AcceptsCommand .start) ∧
    ((withCmd (lit 2) 0x6000000000).AcceptsCommand .stop ∧
      (withCmd (lit 2) 0x7000000000).AcceptsCommand .teardown) ∧
    ((lit 2).presented.rst = false ∧ (lit 2).NoEngineCommand ∧
      (∀ k, (lit 2).phase ≠ .unreachable k) ∧ step (lit 2) = .next (next (lit 2))) :=
  ⟨by decide, by decide, by decide, by decide, by decide, by decide, step_next (by decide)⟩
theorem witness_RunFollowsItsCommands_unreachable :
    (running (.unreachable 1) 2).presented.rst = false ∧ (running (.unreachable 1) 2).NoEngineCommand ∧
    (∃ k, (running (.unreachable 1) 2).phase = .unreachable k) ∧
    step (running (.unreachable 1) 2) = .next (next (running (.unreachable 1) 2)) :=
  ⟨by decide, by decide, by decide, step_next (by decide)⟩
theorem witness_HostReachesTheEngine_latch :
    (running .digOn 1).resetSeen = true ∧ lateWrite.resetSeen = true ∧
    SameEngineControl (running .digOn 1) lateWrite ∧ lateWrite.cfg = (running .digOn 1).cfg ∧
    lateWrite.presented.rst = (running .digOn 1).presented.rst ∧
    (∀ c ∈ [Instr.start, .stop, .teardown],
      lateWrite.AcceptsCommand c ↔ (running .digOn 1).AcceptsCommand c) ∧
    BufferKept (running .digOn 1) lateWrite ∧ lateWrite.latch = (running .digOn 1).latch := by decide
theorem witness_HostReachesTheEngineOnlyThroughItsCommands :
    (lit 2).resetSeen = true ∧
    (withCmd { lit 2 with seg := PerDigit.const 0x7F#7, latch := 0#8 } 0x1000000000).resetSeen = true ∧
    SameEngineControl (lit 2)
      (withCmd { lit 2 with seg := PerDigit.const 0x7F#7, latch := 0#8 } 0x1000000000) ∧
    (withCmd { lit 2 with seg := PerDigit.const 0x7F#7, latch := 0#8 } 0x1000000000).cfg = (lit 2).cfg ∧
    (withCmd { lit 2 with seg := PerDigit.const 0x7F#7, latch := 0#8 } 0x1000000000).presented.rst =
      (lit 2).presented.rst ∧
    (∀ c ∈ [Instr.start, .stop, .teardown],
      (withCmd { lit 2 with seg := PerDigit.const 0x7F#7, latch := 0#8 } 0x1000000000).AcceptsCommand c ↔
        (lit 2).AcceptsCommand c) := by decide
theorem witness_DigitLinesFollowPhaseAndDigit : (running .segOff 3).digOn 3 = true := by decide
theorem witness_ResetReachesTheResetState :
    (withReset { busyAt 2 with phase := .unreachable 1, resetSeen := false } 0x5000000000).presented.rst =
      true := by decide

/-- A state before the first reset (70_reset_and_hazards.md R202). -/
def powerUp : State := { running (.unreachable 2) 3 with resetSeen := false }

theorem witness_RunsBeforeTheFirstResetFault :
    ((withCmd powerUp 0x0000000000).resetSeen = false ∧
      (withCmd powerUp 0x0000000000).presented.rst = false ∧
      (withCmd powerUp 0x0000000000).presented.cmdValid = true) ∧
    powerUp.resetSeen = false ∧ (lit 2).resetSeen = true ∧
    step powerUp = .next (next powerUp) :=
  ⟨by decide, by decide, by decide, step_next (by decide)⟩
theorem witness_ShutdownTurnsEveryLineOff :
    (step (withReset (lit 2) 0#40) = .next (next (withReset (lit 2) 0#40)) ∧
      (withReset (lit 2) 0#40).presented.rst = true) ∧
    (step (withCmd (lit 2) 0x7000000000) = .next (next (withCmd (lit 2) 0x7000000000)) ∧
      (withCmd (lit 2) 0x7000000000).AcceptsCommand .teardown) :=
  ⟨⟨step_next (by decide), by decide⟩, step_next (by decide), by decide⟩
theorem witness_IllegalDwellIsRefused :
    2 ^ 2 < 5 ∧ (1 ≤ 1 ∧ 1 ≤ 2 ^ 2) ∧ (1 ≤ 4 ∧ 4 ≤ 2 ^ 2) := by decide
theorem witness_AssemblerFollowsItsSyntax :
    (3 < 4 ∧ 0x7F ≤ 0x7F) ∧ (3 < 4 ∧ 1 ≤ 1) ∧ 4 ≤ 4 ∧ (3 < 4 ∧ 0x7F < 0x80) ∧ (3 < 4 ∧ 1 < 2) ∧
    [0x31, 0x32, 0x33].length ≠ 4 ∧
    ([0x31, 0x32, 0x33, 0x100].length = 4 ∧ ∃ c ∈ [0x31, 0x32, 0x33, 0x100], 256 ≤ c) ∧
    2 ^ 32 ≤ 0x100000000 ∧ 2 ^ 40 ≤ 0x10000000000 := by decide

/-! The spellings of lines (30_encoding.md R79), written out. -/

theorem witness_Spells_comment : Spells [] (' ' :: ';' :: ['N', 'O', 'P']) :=
  .blank (.inl rfl) (.comment _)
theorem witness_Numeral_decimal : Numeral ['1', '2'] 12 := ⟨[2, 1], by decide, .inl (by decide)⟩
theorem witness_Numeral_hex : Numeral ['0', 'x', '5', 'B'] 0x5B :=
  ⟨[11, 5], by decide, .inr ⟨['5', 'B'], by decide⟩⟩

/-- A word spelled in front of what ends it. -/
theorem spells_word {w cs : List Char} {ts : List Token} (hne : w ≠ []) (hw : ∀ c ∈ w, WordChar c)
    (he : ∀ c ∈ cs.head?, ¬ WordChar c) (h : Spells ts cs) : Spells (.word w :: ts) (w ++ cs) :=
  .word hne hw he h

theorem witness_Spells_nop :
    Spells (.word ['n', 'O', 'p'] :: numberTokens []) (['n', 'O', 'p'] ++ []) ∧
    NamesMnemonic ['n', 'O', 'p'] "NOP" :=
  ⟨spells_word (by decide) (by simp [WordChar, quoteChar]) (by simp) .done, by decide⟩
theorem witness_Spells_word :
    Spells (.word ['.', 'w', 'o', 'r', 'd'] :: numberTokens [['1', '2']])
      (['.', 'w', 'o', 'r', 'd'] ++ ' ' :: (['1', '2'] ++ [' '])) ∧
    NamesMnemonic ['.', 'w', 'o', 'r', 'd'] ".WORD" ∧ List.Forall₂ Numeral [['1', '2']] [12] :=
  ⟨spells_word (by decide) (by simp [WordChar, quoteChar]) (by simp) (.blank (.inl rfl)
      (spells_word (by decide) (by simp [WordChar, quoteChar]) (by simp) (.blank (.inl rfl) .done))),
    by decide, .cons witness_Numeral_decimal .nil⟩
theorem witness_Spells_setdig :
    Spells (.word ['S', 'e', 't', 'D', 'i', 'g'] :: numberTokens [['2'], ['0', 'x', '5', 'B']])
      (['S', 'e', 't', 'D', 'i', 'g'] ++ ' ' :: (['2'] ++ ',' :: ' ' ::
        (['0', 'x', '5', 'B'] ++ ';' :: ['r', 'o', 'w']))) ∧
    NamesMnemonic ['S', 'e', 't', 'D', 'i', 'g'] "SETDIG" ∧
    List.Forall₂ Numeral [['2'], ['0', 'x', '5', 'B']] [2, 0x5B] :=
  ⟨spells_word (by decide) (by simp [WordChar, quoteChar]) (by simp) (.blank (.inl rfl)
      (spells_word (by decide) (by simp [WordChar, quoteChar]) (by simp) (.comma (.blank (.inl rfl)
        (spells_word (by decide) (by simp [WordChar, quoteChar]) (by simp) (.comment _)))))),
    by decide, .cons ⟨[2], by decide, .inl (by decide)⟩ (.cons witness_Numeral_hex .nil)⟩
theorem witness_Spells_setstr :
    Spells [.word ['S', 'E', 'T', 'S', 'T', 'R'], .str [0x31, 0xFF, 0x5C, 0x22]]
      (['S', 'E', 'T', 'S', 'T', 'R'] ++ ' ' :: quoteChar :: ['1', backslashChar, 'x', 'f', 'F',
        backslashChar, backslashChar, backslashChar, quoteChar] ++ [quoteChar]) ∧
    NamesMnemonic ['S', 'E', 'T', 'S', 'T', 'R'] "SETSTR" :=
  ⟨spells_word (by decide) (by simp [WordChar, quoteChar]) (by simp) (.blank (.inl rfl)
      (.str (.plain '1' (by decide) (by decide) (.hex (a := 15) (b := 15) (by decide) (by decide)
        (by decide) (by decide) (.backslash (.quote .done)))) .done)), by decide⟩

end Sys2Proof.Machine.Slice0
end

section

namespace Sys2Proof.Machine

/-! The parameter set (00_scope.md R6, R7): what `buildConfig` refuses and what it builds, and
the range of the dwell in any parameter set. -/

section
variable (dw n : Nat) (digitOnLevel segOnLevel : Bool) (fClk : Nat) (glyph : Glyphs)

theorem buildConfig_eq_none_iff :
    buildConfig dw n digitOnLevel segOnLevel fClk glyph = none ↔ n = 0 ∨ 2 ^ dw < n := by
  have illegal_iff : ¬ (1 ≤ n ∧ n ≤ 2 ^ dw) ↔ n = 0 ∨ 2 ^ dw < n := by omega
  simp [buildConfig, ← illegal_iff]

variable {dw n}

theorem buildConfig_of_legal (hpos : 1 ≤ n) (hle : n ≤ 2 ^ dw) :
    buildConfig dw n digitOnLevel segOnLevel fClk glyph =
      some ⟨dw, BitVec.ofNat dw (n - 1), digitOnLevel, segOnLevel, fClk, glyph⟩ :=
  if_pos ⟨hpos, hle⟩

/-- The reload value of a legal dwell fits in DW bits, so the dwell is read back as it was given. -/
theorem dwellCycles_ofNat_of_legal (hpos : 1 ≤ n) (hle : n ≤ 2 ^ dw) :
    Config.dwellCycles ⟨dw, BitVec.ofNat dw (n - 1), digitOnLevel, segOnLevel, fClk, glyph⟩ = n := by
  have hfits : n - 1 < 2 ^ dw := by omega
  simp only [Config.dwellCycles, BitVec.toNat_ofNat, Nat.mod_eq_of_lt hfits]
  exact Nat.sub_add_cancel hpos

end

theorem one_le_dwellCycles (c : Config) : 1 ≤ c.dwellCycles :=
  Nat.le_add_left 1 c.reload.toNat

theorem dwellCycles_le_two_pow_dw (c : Config) : c.dwellCycles ≤ 2 ^ c.dw :=
  c.reload.isLt

/-- Settles O58: `buildConfig` refuses exactly the illegal dwells, and the DW-bit reload value bounds the
dwell of every parameter set. -/
theorem illegalDwellIsRefused : Obligations.IllegalDwellIsRefused := by
  intro dw n a b f g
  refine ⟨?zero, ?above, ?legal, ?range⟩
  case zero => exact (buildConfig_eq_none_iff dw 0 a b f g).mpr (.inl rfl)
  case above => exact fun habove => (buildConfig_eq_none_iff dw n a b f g).mpr (.inr habove)
  case legal =>
    intro hpos hle
    exact ⟨_, buildConfig_of_legal a b f g hpos hle, dwellCycles_ofNat_of_legal a b f g hpos hle,
      rfl, rfl, rfl, rfl, rfl⟩
  case range => exact fun c => ⟨one_le_dwellCycles c, dwellCycles_le_two_pow_dw c⟩

end Sys2Proof.Machine
end

section

namespace Sys2Proof.Machine

/-! The status word (10_state.md R33), bit by bit and field by field. -/

section
variable (s : State)

theorem getLsbD_status (i : Nat) :
    s.status.getLsbD i =
      if i < 1 then s.run else if i < 4 then s.phase.code.getLsbD (i - 1)
      else if i < 6 then (BitVec.ofNat 2 s.dig.val).getLsbD (i - 4)
      else if i < 7 then s.busy else if i < 8 then s.errIllegal else if i < 9 then s.errFsm
      else if i < 16 then false else s.scanCount.getLsbD (i - 16) := by
  unfold State.status
  rw [BitVec.getLsbD_append, BitVec.getLsbD_append, BitVec.getLsbD_append, BitVec.getLsbD_append,
    BitVec.getLsbD_append, BitVec.getLsbD_append, BitVec.getLsbD_append]
  simp only [BitVec.getLsbD_ofBool, BitVec.getLsbD_zero, Nat.sub_sub]
  grind

theorem extractLsb'_status_phase : s.status.extractLsb' 1 3 = s.phase.code := by
  ext i hi
  rw [BitVec.getElem_extractLsb', getLsbD_status]
  grind

theorem extractLsb'_status_dig : s.status.extractLsb' 4 2 = BitVec.ofNat 2 s.dig.val := by
  ext i hi
  rw [BitVec.getElem_extractLsb', getLsbD_status]
  grind

theorem extractLsb'_status_zeros : s.status.extractLsb' 9 7 = 0#7 := by
  ext i hi
  rw [BitVec.getElem_extractLsb', getLsbD_status]
  grind

theorem extractLsb'_status_scanCount : s.status.extractLsb' 16 16 = s.scanCount := by
  ext i hi
  rw [BitVec.getElem_extractLsb', getLsbD_status]
  grind

end

theorem toNat_code_unreachable (k : Fin 3) : (Phase.unreachable k).code.toNat = 5 + k.val :=
  Nat.mod_eq_of_lt (Nat.add_lt_add_left k.isLt 5)

/-- Settles O51: the single bits are read off `getLsbD_status`, the wider fields off the
`extractLsb'_status` lemmas. -/
theorem statusWordHasItsFields : Obligations.StatusWordHasItsFields := by
  intro s
  refine ⟨getLsbD_status s 0, extractLsb'_status_phase s, ?phase, ?dig, getLsbD_status s 6,
    getLsbD_status s 7, getLsbD_status s 8, extractLsb'_status_zeros s,
    extractLsb'_status_scanCount s, rfl⟩
  case phase =>
    rw [extractLsb'_status_phase]
    cases s.phase with
    | unreachable k => exact toNat_code_unreachable k
    | _ => rfl
  case dig =>
    rw [extractLsb'_status_dig]
    exact Nat.mod_eq_of_lt s.dig.isLt

/-! The error flags (10_state.md R32) and SCAN_COUNT (R30): what an instruction, the engine's edge
and a whole step do with each. -/

theorem decodeCmd_eq_reserved_iff (w : CmdWord) :
    (∃ op, decodeCmd w = .reserved op) ↔ 0x8#4 ≤ opcodeOf w := by
  constructor
  · rintro ⟨op, hop⟩
    have hopcode := decodeCmd_opcode w
    rw [hop] at hopcode
    exact hopcode.1
  · exact fun h => ⟨_, decodeCmd_reserved h⟩

section
variable {s t : State} {i : Instr}

theorem exec_cfg (h : exec i s = .next t) : t.cfg = s.cfg := by
  obtain ⟨u, hu, hcfg, -⟩ := exec_answers s i
  rw [hu] at h
  cases h
  exact hcfg

/-- START in either phase case (43_refresh_engine.md R149). -/
theorem exec_start (s : State) :
    exec .start s =
      .next { s with
        run := true
        phase := if s.phase = .idle then .digOn else s.phase
        dig := if s.phase = .idle then 0 else s.dig } := by
  by_cases hp : s.phase = .idle
  · simp [exec_start_idle s hp, hp]
  · simp [exec_start_running s hp, hp]

/-- ERR_ILLEGAL is set by a reserved instruction and changed by no other (60_exceptions.md R181). -/
theorem exec_errIllegal (h : exec i s = .next t) :
    t.errIllegal = true ↔ s.errIllegal = true ∨ ∃ op, i = .reserved op := by
  cases i with
  | start => rw [exec_start] at h; cases h; simp
  | _ => cases h; simp

/-- SCAN_COUNT is changed by no instruction. -/
theorem exec_scanCount (h : exec i s = .next t) : t.scanCount = s.scanCount := by
  cases i with
  | start => rw [exec_start] at h; cases h; rfl
  | _ => cases h; rfl

/-- What no instruction and no edge of the sequencer changes is, after a step without reset, what the
engine's edge makes of it (43_refresh_engine.md R160). -/
theorem step_eq_engineEdge {α : Type} (f : State → α)
    (hexec : ∀ i u v, exec i u = .next v → f v = f u) (hseq : ∀ u, f (sequencerEdge u) = f u)
    (hr : s.presented.rst = false) (h : step s = .next t) : f t = f (engineEdge s.served) := by
  rcases step_cases s h with ⟨hrst, -⟩ | ⟨-, -, rfl⟩ | ⟨-, -, -, -, hx⟩
  · simp [hr] at hrst
  · exact hseq _
  · exact hexec _ _ _ hx

theorem step_errIllegal (hr : s.presented.rst = false) (h : step s = .next t) :
    t.errIllegal = true ↔
      s.errIllegal = true ∨ (s.accepts = true ∧ 0x8#4 ≤ opcodeOf s.presented.cmd) := by
  rcases step_cases s h with ⟨hrst, -⟩ | ⟨-, ha, rfl⟩ | ⟨-, -, ha, -, hx⟩
  · simp [hr] at hrst
  · simp [innerEdge, ha]
  · rw [exec_errIllegal hx, decodeCmd_eq_reserved_iff]
    simp [ha]

theorem step_errFsm (hr : s.presented.rst = false) (h : step s = .next t) :
    t.errFsm = true ↔ s.errFsm = true ∨ ∃ k, s.phase = .unreachable k := by
  rw [step_eq_engineEdge State.errFsm (fun _ u _ => exec_errFsm u) sequencerEdge_errFsm hr h,
    engineEdge_errFsm]
  rfl

theorem val_lt_three_of_ne {d : DigitPosition} (h : d ≠ 3) : d.val < 3 := by
  revert d
  decide

theorem engineEdge_scanCount (s : State) :
    (engineEdge s).scanCount =
      if s.phase = .digOff ∧ s.dig = 3 then s.scanCount + 1#16 else s.scanCount := by
  cases hp : s.phase with
  | idle => simp [engineEdge_idle s hp]
  | digOn => simp [engineEdge_digOn s hp, digOnEdge]
  | segOn =>
    rw [engineEdge_segOn s hp, segOnEdge]
    split <;> simp
  | segOff => simp [engineEdge_segOff s hp, segOffEdge]
  | digOff =>
    rw [engineEdge_digOff s hp]
    by_cases hlast : s.dig = 3
    · simp [digOffEdge, hlast]
    · simp [digOffEdge, hlast, val_lt_three_of_ne hlast]
  | unreachable k => simp [engineEdge, hp, unreachableEdge]

theorem step_scanCount (hr : s.presented.rst = false) (h : step s = .next t) :
    t.scanCount =
      if s.phase = .digOff ∧ s.dig = 3 then s.scanCount + 1#16 else s.scanCount := by
  rw [step_eq_engineEdge State.scanCount (fun _ _ _ => exec_scanCount) sequencerEdge_scanCount hr h,
    engineEdge_scanCount]
  rfl

end

/-- Settles O46: reset clears both flags, and without it `step_errIllegal` and `step_errFsm` name
the causes. -/
theorem errorFlagsAreSticky : Obligations.ErrorFlagsAreSticky := by
  intro s t h
  refine ⟨fun hr => ?_, fun hr => ⟨step_errIllegal hr h, step_errFsm hr h⟩⟩
  rw [step_reset s hr] at h
  cases h
  exact ⟨rfl, rfl⟩

/-- Settles O47: reset clears SCAN_COUNT, and without it only the engine's edge writes it
(`step_scanCount`). -/
theorem scanCountCountsPassesOnly : Obligations.ScanCountCountsPassesOnly := by
  intro s t h
  cases hr : s.presented.rst with
  | true =>
    rw [step_reset s hr] at h
    cases h
    rfl
  | false =>
    rw [step_scanCount hr h, BitVec.ofNat_add, BitVec.ofNat_toNat, BitVec.setWidth_eq]
    rfl

/-- Settles O25: GLYPH is part of the parameter set, which neither a step nor an instruction
writes. -/
theorem romIsNeverWritten : Obligations.RomIsNeverWritten := by
  refine ⟨fun s t h => ?_, fun i s t => exec_cfg⟩
  have hcfg : t.cfg = s.cfg := (step_modelFields s h).1
  exact ⟨hcfg, fun c => by rw [hcfg]⟩

end Sys2Proof.Machine
end

section

namespace Sys2Proof

/-! The fields of a command word as numbers (30_encoding.md R70, R71), and what selects the command
(R75). -/

theorem toNat_charAt_dataOf (w : CmdWord) (j : DigitPosition) :
    (charAt (dataOf w) j).toNat = w.toNat / 2 ^ (24 - 8 * j.val) % 256 := by
  simp only [charAt, dataOf, BitVec.extractLsb'_toNat, Nat.shiftRight_eq_div_pow]
  fin_cases j <;> simp only <;> omega

theorem toNat_patternOf (w : CmdWord) : (patternOf w).toNat = w.toNat % 128 := by
  simp [patternOf, dataOf]

theorem val_posOf (w : CmdWord) : (posOf w).val = w.toNat / 2 ^ 34 % 4 := by
  simp [posOf, Nat.shiftRight_eq_div_pow]

theorem toNat_valueOf (w : CmdWord) : (valueOf w).toNat = w.toNat / 2 ^ 33 % 2 := by
  simp [valueOf, BitVec.getLsbD, Nat.toNat_testBit]

theorem opcodeOf_eq_iff (w : CmdWord) (op : BitVec 4) :
    opcodeOf w = op ↔ w.toNat / 2 ^ 36 = op.toNat := by
  rw [← toNat_opcodeOf, BitVec.toNat_inj]

/-- Settles O4: OP as a number selects the instruction, and each operand is its field as a number. -/
theorem operandsStandWhereTheFormatSays : Obligations.OperandsStandWhereTheFormatSays := by
  intro w
  refine ⟨?setdig, ?setpt, ?setstr⟩
  case setdig =>
    intro hop
    exact ⟨_, _, decodeCmd_setdig ((opcodeOf_eq_iff w 0x2#4).2 hop), val_posOf w, toNat_patternOf w⟩
  case setpt =>
    intro hop
    exact ⟨_, _, decodeCmd_setpt ((opcodeOf_eq_iff w 0x3#4).2 hop), val_posOf w, toNat_valueOf w⟩
  case setstr =>
    intro hop
    refine ⟨_, _, _, _, decodeCmd_setstr ((opcodeOf_eq_iff w 0x4#4).2 hop), toNat_charAt_dataOf w 0,
      toNat_charAt_dataOf w 1, toNat_charAt_dataOf w 2, ?_⟩
    simpa using toNat_charAt_dataOf w 3

section
variable {w w' : CmdWord}

theorem mnemonic_decodeCmd_congr (h : opcodeOf w = opcodeOf w') :
    (decodeCmd w).mnemonic = (decodeCmd w').mnemonic := by
  unfold decodeCmd
  rw [h]
  split <;> rfl

theorem and_opcodeMask (w : CmdWord) : w &&& 0xF000000000#40 = (opcodeOf w).setWidth 40 <<< 36 := by
  have hshift : (opcodeOf w).setWidth 40 = w >>> 36 := by
    apply BitVec.eq_of_toNat_eq
    rw [BitVec.toNat_setWidth_of_le (by decide), toNat_opcodeOf, BitVec.toNat_ushiftRight,
      Nat.shiftRight_eq_div_pow]
  rw [hshift, BitVec.shiftLeft_ushiftRight]
  rfl

/-- Every mask of the table lies within OP. -/
theorem selects_congr {r : TableRow} (hr : r ∈ cmdTable) (h : opcodeOf w = opcodeOf w') :
    r.selects w = r.selects w' := by
  have hmask : 0xF000000000#40 &&& r.mask = r.mask := by
    revert r
    decide
  have hand : w &&& r.mask = w' &&& r.mask := by
    rw [← hmask, ← BitVec.and_assoc, ← BitVec.and_assoc, and_opcodeMask, and_opcodeMask, h]
  simp only [TableRow.selects, hand]

end

/-- Settles O3: the mnemonic and the selected rows are those of the word with the same OP and every
other field 0, which leaves one word for each of the sixteen opcodes. -/
theorem opcodeAloneSelectsTheCommand : Obligations.OpcodeAloneSelectsTheCommand := by
  intro w
  have hop : opcodeOf w = opcodeOf (cmdWord (opcodeOf w) 0 false 0#32) := (opcodeOf_cmdWord ..).symm
  rw [← toNat_opcodeOf, mnemonic_decodeCmd_congr hop,
    List.filter_congr fun r hr => selects_congr hr hop]
  generalize opcodeOf w = op
  revert op
  decide

/-! A command word less its ignored bits (30_encoding.md R76). -/

/-- A field that the mask holds in full reads the same under the mask. -/
theorem extractLsb'_and_of_ones {n start len : Nat} (x : BitVec n) {mask : BitVec n}
    (h : mask.extractLsb' start len = BitVec.allOnes len) :
    (x &&& mask).extractLsb' start len = x.extractLsb' start len := by
  rw [BitVec.extractLsb'_and, h, BitVec.and_allOnes]

open Machine (usedBits)

theorem opcodeOf_and_usedBits (w : CmdWord) (op : BitVec 4) :
    opcodeOf (w &&& usedBits op) = opcodeOf w := by
  apply extractLsb'_and_of_ones
  revert op
  decide

theorem dataOf_and (w m : CmdWord) : dataOf (w &&& m) = dataOf w &&& dataOf m :=
  BitVec.extractLsb'_and

/-- Each command's mask of used bits holds every field that the command decodes to. -/
theorem decodeCmd_and_usedBits (w : CmdWord) :
    decodeCmd (w &&& usedBits (opcodeOf w)) = decodeCmd w := by
  unfold decodeCmd
  rw [opcodeOf_and_usedBits]
  split
  case h_3 hop =>
    have hpos : posOf (w &&& usedBits 0x2#4) = posOf w :=
      congrArg BitVec.toFin (extractLsb'_and_of_ones w rfl)
    have hpat : patternOf (w &&& usedBits 0x2#4) = patternOf w := by
      rw [patternOf, dataOf_and]
      exact extractLsb'_and_of_ones (dataOf w) rfl
    rw [hop, hpos, hpat]
  case h_4 hop =>
    have hpos : posOf (w &&& usedBits 0x3#4) = posOf w :=
      congrArg BitVec.toFin (extractLsb'_and_of_ones w rfl)
    have hval : valueOf (w &&& usedBits 0x3#4) = valueOf w :=
      (BitVec.getLsbD_and ..).trans (Bool.and_true _)
    rw [hop, hpos, hval]
  case h_5 hop =>
    have hdata : dataOf (w &&& usedBits 0x4#4) = dataOf w := extractLsb'_and_of_ones w rfl
    rw [hop, hdata]
  all_goals rfl

end Sys2Proof
end

section

namespace Sys2Proof.Machine

/-! The command port in a step (30_encoding.md R72 to R77): a presented word, no command presented, and a
busy sequencer (42_buffer_commands.md R125) until it is ready. -/

section
variable (s : State)

/-- A word on the command port acts only through what it decodes to. -/
theorem step_presentWord_cmd (w : CmdWord) :
    step (s.presentWord (.cmd w)) =
      if s.resetSeen = false then .fault .commandBeforeReset
      else if s.busy = true then .next (innerEdge s.served)
      else exec (decodeCmd w) (engineEdge s.served) := by
  cases hs : s.resetSeen with
  | false => exact step_beforeReset _ rfl hs rfl
  | true =>
    cases hb : s.busy with
    | true => exact step_busy _ hs rfl hb
    | false => exact step_accepts _ hs ((accepts_iff _).2 ⟨rfl, rfl, hb⟩)

/-- With no command presented a step outside reset is the engine's and the sequencer's edge. -/
theorem step_withoutCommand (hr : s.presented.rst = false) :
    step s.withoutCommand = .next (innerEdge s.served) :=
  step_noCommand _ hr (.inr rfl) rfl

/-- Where a command would be accepted the sequencer is not busy: with none the step is the engine's edge alone. -/
theorem step_withoutCommand_of_accepts (ha : s.accepts = true) :
    step s.withoutCommand = .next (engineEdge s.served) := by
  obtain ⟨-, hr, hb⟩ := (accepts_iff s).1 ha
  rw [step_withoutCommand s hr, innerEdge_ready s.served hb]

theorem cmdReady_of_ready (hb : s.busy = false) (hr : s.presented.rst = false) :
    s.cmdReady = true := by
  simp [State.cmdReady, hb, hr]

theorem step_eq_withoutCommand (hs : s.resetSeen = true) (ha : s.accepts = false) :
    step s = step s.withoutCommand := by
  cases hr : s.presented.rst with
  | true => exact (step_reset s hr).trans (step_reset s.withoutCommand hr).symm
  | false => rw [step_noCommand s hr (.inl hs) ha, step_withoutCommand s hr]

/-- A cycle of a busy sequencer: it moves on to the next row or, after row 3, is through
(42_buffer_commands.md R125). -/
theorem step_busy_sequencer (hs : s.resetSeen = true) (hr : s.presented.rst = false)
    (hb : s.busy = true) :
    ∃ u, step s = .next u ∧ u.resetSeen = true ∧ u.host = s.host.tail ∧
      u.busy = !decide (s.wrIdx = 3) ∧ u.wrIdx = if s.wrIdx = 3 then 0 else s.wrIdx + 1 := by
  obtain ⟨hbusy, hidx, -⟩ := innerEdge_busy_spec s.served hb
  exact ⟨_, step_busy s hs hr hb, (innerEdge_resetSeen _).trans hs, innerEdge_host _, hbusy, hidx⟩

/-- A busy sequencer with `n` rows to write after the next one is ready `n + 1` cycles on. -/
theorem reaches_cmdReady_of_busy {n : Nat} (hs : s.resetSeen = true) (hb : s.busy = true)
    (hw : s.wrIdx.val + n = 3) (hrst : ∀ i ∈ s.host.take (n + 2), i.rst = false) :
    ∃ t, Reaches (n + 1) s t ∧ t.cmdReady = true := by
  induction n generalizing s with
  | zero =>
    obtain ⟨u, hu, -, hhost, hbusy, -⟩ := step_busy_sequencer s hs (presented_of_take s hrst rfl) hb
    have hlast : s.wrIdx = 3 := Fin.ext hw
    have hready : u.busy = false := by simp [hbusy, hlast]
    have hnorst : ∀ i ∈ u.host.take 1, i.rst = false := hhost ▸ tail_of_take s hrst
    exact ⟨u, (reaches_succ s).2 ⟨u, hu, rfl⟩,
      cmdReady_of_ready u hready (presented_of_take u hnorst rfl)⟩
  | succ n ih =>
    obtain ⟨u, hu, hseen, hhost, hbusy, hidx⟩ :=
      step_busy_sequencer s hs (presented_of_take s hrst rfl) hb
    have hmore : s.wrIdx ≠ 3 := fun h => by simp [h] at hw
    have hnext : u.wrIdx.val + n = 3 := by
      rw [hidx, if_neg hmore]
      omega
    obtain ⟨t, ht, hready⟩ :=
      ih u hseen (by simp [hbusy, hmore]) hnext (hhost ▸ tail_of_take s hrst)
    exact ⟨t, (reaches_succ s).2 ⟨u, hu, ht⟩, hready⟩

end

/-- Settles O6: words that agree in the used bits decode to the same instruction, and a step depends on the
presented word through that alone (`step_presentWord_cmd`). -/
theorem ignoredFieldsHaveNoEffect : Obligations.IgnoredFieldsHaveNoEffect := by
  intro s w w' hagree
  have hop : opcodeOf w = opcodeOf w' := by
    rw [← opcodeOf_and_usedBits w (opcodeOf w), hagree, opcodeOf_and_usedBits]
  have hdecode : decodeCmd w = decodeCmd w' := by
    rw [← decodeCmd_and_usedBits w, hagree, hop, decodeCmd_and_usedBits]
  rw [step_presentWord_cmd, step_presentWord_cmd, hdecode]

/-- Settles O9: what is not accepted acts as no command, and a busy sequencer moves on at every edge until it
is ready (`reaches_cmdReady_of_busy`). -/
theorem commandNotReadyIsDropped : Obligations.CommandNotReadyIsDropped := by
  refine ⟨?dropped, ?ready⟩
  case dropped =>
    intro s hs hready
    exact step_eq_withoutCommand s hs (by simp [State.accepts, hready])
  case ready =>
    intro s hs hidx hrst
    cases hb : s.busy with
    | false => exact ⟨0, s, by omega, rfl, cmdReady_of_ready s hb (presented_of_take s hrst rfl)⟩
    | true =>
      have hpos : s.wrIdx.val ≠ 0 := fun h => hidx hb (Fin.ext h)
      have hlt := s.wrIdx.isLt
      obtain ⟨t, ht, hready⟩ := reaches_cmdReady_of_busy (n := 3 - s.wrIdx.val) s hs hb (by omega)
        fun i hi => hrst i (List.take_subset_take_left _ (by omega) hi)
      exact ⟨_, t, by omega, ht, hready⟩

/-- Settles O20: with and without the reserved command the step is the engine's edge, to which the command
adds `raiseIllegal`. -/
theorem reservedOpcodeOnlySetsErrIllegal : Obligations.ReservedOpcodeOnlySetsErrIllegal := by
  refine ⟨fun w => decodeCmd_reserved, ?exec, ?step⟩
  case exec =>
    intro s op
    exact ⟨s.raiseIllegal, exec_reserved s op, rfl, rfl, ⟨fun _ => rfl, fun _ => rfl⟩,
      ⟨rfl, rfl, rfl, rfl, rfl, rfl⟩, ⟨rfl, rfl, rfl⟩, rfl, rfl, rfl, rfl⟩
  case step =>
    intro s hs ha hop
    refine ⟨_, step_withoutCommand_of_accepts s ha, ?_⟩
    rw [step_accepts s hs ha, decodeCmd_reserved hop, exec_reserved]
    rfl

end Sys2Proof.Machine
end

section

namespace Sys2Proof.Machine

/-! The segment encoder ROM (41_encoder_rom.md R101 to R104): case normalisation, and the blank outside the
alphabet. -/

section
variable {c : CharCode}

theorem normalizeCase_of_lower (hlo : 0x61 ≤ c.toNat) (hhi : c.toNat ≤ 0x7A) :
    normalizeCase c = c - 0x20#8 :=
  if_pos ⟨BitVec.le_def.2 hlo, BitVec.le_def.2 hhi⟩

theorem normalizeCase_of_not_lower (h : ¬ (0x61 ≤ c.toNat ∧ c.toNat ≤ 0x7A)) :
    normalizeCase c = c :=
  if_neg fun ⟨hlo, hhi⟩ => h ⟨BitVec.le_def.1 hlo, BitVec.le_def.1 hhi⟩

theorem toNat_upperCase (hlo : 0x61 ≤ c.toNat) : (c - 0x20#8).toNat = c.toNat - 0x20 :=
  BitVec.toNat_sub_of_le (BitVec.le_def.2 (Nat.le_trans (by decide) hlo))

/-- A lower-case letter is looked up as its upper-case twin, which normalisation keeps (R102). -/
theorem enc_of_lower (g : Glyphs) (hlo : 0x61 ≤ c.toNat) (hhi : c.toNat ≤ 0x7A) :
    enc g c = enc g (c - 0x20#8) := by
  have hkept : normalizeCase (c - 0x20#8) = c - 0x20#8 :=
    normalizeCase_of_not_lower (by rw [toNat_upperCase hlo]; omega)
  rw [enc, enc, hkept, normalizeCase_of_lower hlo hhi]

/-- ALPHABET of R101, by the numbers of its codes. -/
def InAlphabet (u : CharCode) : Prop :=
  u.toNat = 0x20 ∨ u.toNat = 0x2D ∨ (0x30 ≤ u.toNat ∧ u.toNat ≤ 0x39) ∨
    (0x41 ≤ u.toNat ∧ u.toNat ≤ 0x46)

/-- The blank fallback (R104): every row of the table but the last has a code of the alphabet. -/
theorem glyphOf_of_not_inAlphabet (g : Glyphs) {u : CharCode} (h : ¬ InAlphabet u) :
    glyphOf g u = 0#7 := by
  unfold glyphOf
  split
  case h_19 => rfl
  all_goals exact absurd (by simp [InAlphabet]) h

theorem enc_of_not_inAlphabet (g : Glyphs) (h : ¬ InAlphabet (normalizeCase c)) : enc g c = 0#7 :=
  glyphOf_of_not_inAlphabet g h

/-- Of the lower-case letters only 'a' to 'f' reach the alphabet (R102). -/
theorem inAlphabet_normalizeCase (h : InAlphabet (normalizeCase c)) :
    InAlphabet c ∨ (0x61 ≤ c.toNat ∧ c.toNat ≤ 0x66) := by
  by_cases hlower : 0x61 ≤ c.toNat ∧ c.toNat ≤ 0x7A
  · right
    rw [normalizeCase_of_lower hlower.1 hlower.2, InAlphabet, toNat_upperCase hlower.1] at h
    omega
  · left
    rwa [normalizeCase_of_not_lower hlower] at h

end

/-- Settles O23: the eighteen codes of the alphabet are read off the table, and the other codes follow from
what normalisation does with them (`enc_of_lower`, `inAlphabet_normalizeCase`). -/
theorem encoderFollowsTheAlphabet : Obligations.EncoderFollowsTheAlphabet := by
  intro g
  refine ⟨⟨rfl, rfl, rfl⟩, ⟨rfl, rfl, rfl, rfl, rfl, rfl, rfl, rfl, rfl, rfl, rfl, rfl, rfl, rfl, rfl⟩,
    fun c => enc_of_lower g, ?blank⟩
  case blank =>
    intro c hspace hdash hdigit hupper hlower
    refine enc_of_not_inAlphabet g fun h => ?_
    rcases inAlphabet_normalizeCase h with (h | h | h | h) | h
    · exact hspace h
    · exact hdash h
    · exact hdigit h
    · exact hupper h
    · exact hlower h

/-! The ENCODE port (41_encoder_rom.md R105): what it showed reaches no register. -/

section
variable (s : State) {t u : State}

theorem registersKept_withEncPat (p : Pattern) : RegistersKept s { s with encPat := p } :=
  ⟨⟨fun _ => rfl, fun _ => rfl⟩, ⟨rfl, rfl, rfl, rfl, rfl, rfl⟩, ⟨rfl, rfl, rfl⟩, rfl, rfl⟩

variable {s}

/-- The command's part of a cycle does not read what enc_pat showed. -/
theorem commandEdge_withEncPat (p : Pattern) (h : commandEdge exec s u = .next t) :
    commandEdge exec s { u with encPat := p } = .next { t with encPat := p } := by
  unfold commandEdge at h ⊢
  cases ha : s.accepts with
  | true =>
    rw [ha] at h
    exact exec_withEncPat u p h
  | false =>
    rw [ha] at h
    cases h
    rfl

/-- A reset, which keeps enc_pat (log 3), and the rest of the edge do not read what enc_pat showed. -/
theorem clockEdge_withEncPat (p : Pattern) (h : clockEdge exec s u = .next t) :
    clockEdge exec s { u with encPat := p } = .next { t with encPat := p } := by
  unfold clockEdge at h ⊢
  split_ifs at h ⊢
  · cases h
    rfl
  · rw [innerEdge_withEncPat]
    exact commandEdge_withEncPat p h

/-- With another code on enc_char a step differs in the record of what enc_pat showed alone. -/
theorem step_withEncChar (c : CharCode) (h : step s = .next t) :
    step (s.present { s.presented with encChar := c }) =
      .next { t with encPat := enc s.cfg.glyph c } :=
  clockEdge_withEncPat (enc s.cfg.glyph c) (u := s.served) h

end

/-- Settles O21: a lookup writes the record of enc_pat alone, which no step reads (`step_withEncChar`). -/
theorem encodePortShowsTheRom : Obligations.EncodePortShowsTheRom := by
  refine ⟨fun s => rfl, ?lookup, ?corners, ?port⟩
  case lookup =>
    intro s c
    exact ⟨_, exec_encode s c, registersKept_withEncPat s _, rfl, rfl, rfl⟩
  case corners =>
    intro g
    exact ⟨rfl, rfl, rfl, rfl, fun c hlo hhi => enc_of_lower g hlo (Nat.le_trans hhi (by decide))⟩
  case port =>
    intro s c
    exact ⟨rfl, fun i => Iff.rfl, fun t h =>
      ⟨_, step_withEncChar c h, registersKept_withEncPat t _, rfl, rfl, rfl⟩⟩

end Sys2Proof.Machine
end

section

namespace Sys2Proof

theorem PerDigit.set_eq_self {α : Type} {r : PerDigit α} {d : DigitPosition} {a : α}
    (h : r.get d = a) : r.set d a = r := by
  refine PerDigit.ext_get fun e => ?_
  rw [PerDigit.get_set]
  split
  next he => rw [he, h]
  next => rfl

/-- `DATA[6:0]` is `cmd[6:0]` (30_encoding.md R70, R71). -/
theorem patternOf_eq_extractLsb' (w : CmdWord) : patternOf w = w.extractLsb' 0 7 := by
  ext i hi
  simp [patternOf, dataOf]

end Sys2Proof

namespace Sys2Proof.Machine

/-! The buffer commands (42_buffer_commands.md R120 to R124): what writing the buffer leaves alone, the writes that
change nothing, and the command and readback ports. -/

section
variable (s : State)

/-- New contents of the buffer touch no register outside it. -/
theorem bufferWrite_frame (seg : PerDigit Pattern) (pt : PerDigit Bool) :
    EngineKept s { s with seg := seg, pt := pt } ∧ SequencerKept s { s with seg := seg, pt := pt } ∧
    ErrorsKept s { s with seg := seg, pt := pt } ∧ ModelKept s { s with seg := seg, pt := pt } :=
  ⟨⟨rfl, rfl, rfl, rfl, rfl, rfl⟩, ⟨rfl, rfl, rfl⟩, ⟨rfl, rfl⟩, rfl, rfl, rfl, rfl⟩

variable {s}

theorem clearBuffer_eq_self (h : ∀ d, s.segRow d = 0#7 ∧ s.point d = false) :
    s.clearBuffer = s := by
  have hseg : PerDigit.const 0#7 = s.seg :=
    PerDigit.ext_get fun d => (PerDigit.get_const ..).trans (h d).1.symm
  have hpt : PerDigit.const false = s.pt :=
    PerDigit.ext_get fun d => (PerDigit.get_const ..).trans (h d).2.symm
  rw [State.clearBuffer, hseg, hpt]

theorem writePoint_eq_self {pos : DigitPosition} {v : Bool} (h : s.point pos = v) :
    s.writePoint pos v = s := by
  rw [State.writePoint, PerDigit.set_eq_self h]

theorem not_acceptsCommand_of_busy (h : s.busy = true) (c : Instr) : ¬ s.AcceptsCommand c := by
  rintro ⟨ha, -⟩
  obtain ⟨-, -, hready⟩ := (accepts_iff s).1 ha
  simp [h] at hready

variable (s)

/-- The edge reads rst, cmd_valid, cmd and enc_char of the inputs, none of which rd_pos changes (R126). -/
theorem step_withRdPos (pos : DigitPosition) :
    step (s.present { s.presented with rdPos := pos }) = step s := by
  rw [step_eq_clockEdge, step_eq_clockEdge]
  rfl

end

/-- Settles O12: with the NOP and with no command the step is the engine's edge alone. -/
theorem nopWritesNothing : Obligations.NopWritesNothing := by
  refine ⟨fun w => decodeCmd_nop, decodeCmd_nop rfl, exec_nop, ?step⟩
  case step =>
    rintro s hs ⟨ha, hnop⟩
    rw [step_accepts s hs ha, hnop, exec_nop, step_withoutCommand_of_accepts s ha]

/-- Settles O13: what `clearBuffer` writes and leaves, and `clearBuffer_eq_self`. -/
theorem clearBlanksEveryCell : Obligations.ClearBlanksEveryCell := by
  refine ⟨fun w => decodeCmd_clear, ?exec, ?blank⟩
  case exec =>
    intro s
    refine ⟨s.clearBuffer, exec_clear s, fun d k => ?_, point_clearBuffer s, bufferWrite_frame s _ _⟩
    rw [segRow_clearBuffer, BitVec.getLsbD_zero]
  case blank =>
    intro s hblank
    rw [exec_clear, clearBuffer_eq_self hblank]

/-- Settles O14: `writeRow` sets the one row, and its frame is `bufferWrite_frame`. -/
theorem setdigWritesItsRow : Obligations.SetdigWritesItsRow := by
  refine ⟨fun w hop => ?decode, fun s pos pat => ⟨s.writeRow pos pat, exec_setdig s pos pat,
    fun k => ?row, fun d hd => ?others, fun d => point_writeRow s pos d pat,
    bufferWrite_frame s _ _⟩⟩
  case decode => rw [decodeCmd_setdig hop, patternOf_eq_extractLsb']
  case row => rw [segRow_writeRow, if_pos rfl]
  case others => rw [segRow_writeRow, if_neg hd]

/-- Settles O15: `writePoint` sets the one point; the round trip reads both writes off
`point_writePoint`. -/
theorem setptWritesItsPoint : Obligations.SetptWritesItsPoint := by
  refine ⟨fun w => decodeCmd_setpt, ?exec, ?same, ?roundTrip⟩
  case exec =>
    intro s pos v
    refine ⟨s.writePoint pos v, exec_setpt s pos v, ?_, fun d hd => ?_,
      fun d => segRow_writePoint s pos d v, bufferWrite_frame s _ _⟩
    · rw [point_writePoint, if_pos rfl]
    · rw [point_writePoint, if_neg hd]
  case same =>
    intro s pos v hv
    rw [exec_setpt, writePoint_eq_self hv]
  case roundTrip =>
    intro s t u pos ht hu
    rw [exec_setpt] at ht hu
    cases ht
    cases hu
    refine ⟨?_, fun d hd => ?_⟩
    · rw [point_writePoint, if_pos rfl]
    · rw [point_writePoint, if_neg hd, point_writePoint, if_neg hd]

/-- Settles O16: the first edge is `writeChar` at row 0 with the sequencer's registers loaded. -/
theorem setstrWritesRowZeroAndStartsTheSequencer :
    Obligations.SetstrWritesRowZeroAndStartsTheSequencer := by
  refine ⟨fun w hop => ⟨_, _, _, _, decodeCmd_setstr hop, packChars_charAt _⟩,
    fun s c hb => not_acceptsCommand_of_busy hb c, ?exec⟩
  case exec =>
    intro s c0 c1 c2 c3
    exact ⟨_, exec_setstr s c0 c1 c2 c3, segRow_writeChar s 0 0 c0,
      fun d hd => (segRow_writeChar s 0 d c0).trans (if_neg hd), fun d => point_writeChar s 0 d c0,
      rfl, rfl, rfl, ⟨rfl, rfl, rfl, rfl, rfl, rfl⟩, ⟨rfl, rfl⟩, rfl, rfl, rfl, rfl⟩

/-- Settles O28: the port is the reader of the buffer at rd_pos, which the step does not read
(`step_withRdPos`). -/
theorem readbackShowsTheBuffer : Obligations.ReadbackShowsTheBuffer :=
  ⟨fun _ => ⟨rfl, rfl⟩, step_withRdPos⟩

end Sys2Proof.Machine
end

section

namespace Sys2Proof.Machine

/-! The lines by phase (43_refresh_engine.md R140, R141). -/

theorem active_iff (p : Phase) : p.active = true ↔ p = .digOn ∨ p = .segOn ∨ p = .segOff := by
  cases p <;> simp [Phase.active]

section
variable {s : State}

theorem digOn_iff {i : DigitPosition} :
    s.digOn i = true ↔ (s.phase = .digOn ∨ s.phase = .segOn ∨ s.phase = .segOff) ∧ s.dig = i := by
  simp [State.digOn, active_iff]

theorem segOn_eq_false_of_ne (h : s.phase ≠ .segOn) (j : SegmentLine) : s.segOn j = false := by
  simp [State.segOn, h]

theorem linesOff_of_inactive (h : s.phase.active = false) : s.LinesOff :=
  ⟨fun i => by simp [State.digOn, h],
    segOn_eq_false_of_ne fun hp => by simp [hp, Phase.active] at h⟩

theorem linesOff_of_idle (h : s.phase = .idle) : s.LinesOff :=
  linesOff_of_inactive (by rw [h]; rfl)

theorem getLsbD_digLine (i : DigitPosition) :
    s.digLine.getLsbD i.val = lineLevel (s.digOn i) s.cfg.digitOnLevel := by
  rw [State.digLine, BitVec.getLsbD_ofFnLE, dif_pos i.isLt]

end

/-- Settles O52: a line's level is that of `digOn`, which holds of the position DIG alone
(`digOn_iff`). -/
theorem digitLinesFollowPhaseAndDigit : Obligations.DigitLinesFollowPhaseAndDigit := by
  refine ⟨fun s i => ?level, fun s i k hi hk => ?one⟩
  case level =>
    refine (getLsbD_digLine i).trans ?_
    simp only [lineLevel, digOn_iff]
  case one => exact (digOn_iff.1 hi).2.symm.trans (digOn_iff.1 hk).2

end Sys2Proof.Machine
end

section

namespace Sys2Proof.Machine

/-! The engine's edge case by case (43_refresh_engine.md R142 to R148), and what it does not read. -/

theorem val_add_one_of_lt_three {d : DigitPosition} (h : d.val < 3) : (d + 1).val = d.val + 1 := by
  revert d
  decide

section
variable (s : State)

theorem engineEdge_segOn_done (hp : s.phase = .segOn) (hc : s.dwellCnt = 0) :
    engineEdge s = { s with phase := .segOff, latch := 0#8 } := by
  rw [engineEdge_segOn s hp, segOnEdge, if_pos hc]

theorem engineEdge_segOn_holds (hp : s.phase = .segOn) (hc : s.dwellCnt ≠ 0) :
    engineEdge s = { s with dwellCnt := s.dwellCnt - 1 } := by
  rw [engineEdge_segOn s hp, segOnEdge, if_neg hc]

theorem engineEdge_digOff_next (hp : s.phase = .digOff) (hd : s.dig.val < 3) :
    engineEdge s = { s with dig := s.dig + 1, phase := .digOn } := by
  rw [engineEdge_digOff s hp, digOffEdge, if_pos hd]

theorem engineEdge_digOff_last (hp : s.phase = .digOff) (hd : s.dig = 3) :
    engineEdge s = { s with
      scanCount := s.scanCount + 1#16
      dig := 0
      phase := if s.run then .digOn else .idle } := by
  rw [engineEdge_digOff s hp, digOffEdge, if_neg (by rw [hd]; decide)]

theorem engineEdge_unreachable {k : Fin 3} (hp : s.phase = .unreachable k) :
    engineEdge s = s.halt.raiseFsm := by
  simp [engineEdge, hp, unreachableEdge]

/-- The buffer is read in DIG_ON alone (R142). -/
theorem engineEdge_withBuffer (seg : PerDigit Pattern) (pt : PerDigit Bool) (h : s.phase ≠ .digOn) :
    engineEdge { s with seg := seg, pt := pt } = { engineEdge s with seg := seg, pt := pt } := by
  obtain ⟨_, _, phase, _, _, _, _, _, _, _, _, _, _, _, _, _, _⟩ := s
  cases phase with
  | digOn => exact absurd rfl h
  | segOn =>
    simp only [engineEdge, segOnEdge]
    split <;> rfl
  | digOff =>
    simp only [engineEdge, digOffEdge]
    split <;> rfl
  | _ => rfl

/-- RUN is read at the end of a pass alone (R145), and an unreachable phase clears it (R147). -/
theorem engineEdge_withRun (r : Bool) (hlast : ¬ (s.phase = .digOff ∧ s.dig = 3))
    (hreach : ∀ k, s.phase ≠ .unreachable k) :
    engineEdge { s with run := r } = { engineEdge s with run := r } := by
  obtain ⟨_, _, phase, dig, _, _, _, _, _, _, _, _, _, _, _, _, _⟩ := s
  cases phase with
  | unreachable k => exact absurd rfl (hreach k)
  | segOn =>
    simp only [engineEdge, segOnEdge]
    split <;> rfl
  | digOff =>
    have hlt : dig.val < 3 := val_lt_three_of_ne fun hd => hlast ⟨rfl, hd⟩
    simp only [engineEdge, digOffEdge, if_pos hlt]
  | _ => rfl

end

/-! One step in each phase with no command to the engine, which is the engine's edge
(`step_engineKept`). -/

/-- Settles O31: the step is `digOnEdge`, whose latch is the 4 x 8 view of the row and its point. -/
theorem digOnLoadsTheLatch : Obligations.DigOnLoadsTheLatch := by
  refine ⟨?step, engineEdge_withBuffer⟩
  case step =>
    intro s hs hr hn hp
    obtain ⟨t, ht, hkept, hfsm⟩ := step_engineKept s hs hr hn
    rw [engineEdge_digOn s hp] at hkept hfsm
    obtain ⟨hphase, hdig, hcnt, hlatch, hrun, hscan⟩ := hkept
    have hload : t.latch = s.lineRow s.dig := hlatch
    refine ⟨t, ht, hphase, fun k hk => ?_, ?_, hcnt, hdig, hrun, hscan, hfsm⟩
    · rw [hload, ← setWidth_lineRow, BitVec.getLsbD_setWidth]
      simp [hk]
    · rw [hload, getLsbD_lineRow_seven]

/-- Settles O33: SEG_OFF is an active phase without lit segments, and the step is `segOffEdge`. -/
theorem segOffLastsOneCycle : Obligations.SegOffLastsOneCycle := by
  refine ⟨?lines, ?step⟩
  case lines =>
    intro s hp
    exact ⟨segOn_eq_false_of_ne (by simp [hp]), digOn_iff.2 ⟨.inr (.inr hp), rfl⟩⟩
  case step =>
    intro s hs hr hn hp
    obtain ⟨t, ht, hkept, hfsm⟩ := step_engineKept s hs hr hn
    rw [engineEdge_segOff s hp] at hkept hfsm
    obtain ⟨hphase, hdig, hcnt, hlatch, hrun, hscan⟩ := hkept
    exact ⟨t, ht, hphase, hdig, hcnt, hlatch, hrun, hscan, hfsm⟩

/-- Settles O34: the step is the edge of DIG_OFF, which goes on (`engineEdge_digOff_next`) or ends the
pass (`engineEdge_digOff_last`), where alone RUN is read (`engineEdge_withRun`). -/
theorem digOffGoesOnOrEndsThePass : Obligations.DigOffGoesOnOrEndsThePass := by
  refine ⟨fun s hp => linesOff_of_inactive (by rw [hp]; rfl), ?step, engineEdge_withRun⟩
  case step =>
    intro s hs hr hn hp
    obtain ⟨t, ht, hkept, hfsm⟩ := step_engineKept s hs hr hn
    by_cases hd : s.dig = 3
    · rw [engineEdge_digOff_last s hp hd] at hkept hfsm
      obtain ⟨hphase, hdig, hcnt, hlatch, hrun, hscan⟩ := hkept
      refine ⟨t, ht, hcnt, hlatch, hrun, hfsm, ?_⟩
      rw [if_neg (by rw [hd]; decide)]
      exact ⟨hdig, by rw [hscan]; exact BitVec.toNat_add .., hphase⟩
    · have hlt := val_lt_three_of_ne hd
      rw [engineEdge_digOff_next s hp hlt] at hkept hfsm
      obtain ⟨hphase, hdig, hcnt, hlatch, hrun, hscan⟩ := hkept
      refine ⟨t, ht, hcnt, hlatch, hrun, hfsm, ?_⟩
      rw [if_pos hlt]
      exact ⟨hphase, by rw [hdig]; exact val_add_one_of_lt_three hlt, hscan⟩

/-- From IDLE an instruction leaves the engine in IDLE unless it is START (R149). -/
theorem exec_phase_idle_iff {i : Instr} {s t : State} (hp : s.phase = .idle)
    (h : exec i s = .next t) : t.phase = .idle ↔ i ≠ .start := by
  cases i with
  | start =>
    rw [exec_start_idle s hp] at h
    cases h
    simp
  | _ =>
    cases h
    simp [hp]

/-- Settles O35: the edge of IDLE changes nothing, so IDLE is left by the accepted command alone
(`exec_phase_idle_iff`). -/
theorem idleIsLeftOnlyByStart : Obligations.IdleIsLeftOnlyByStart := by
  refine ⟨fun s => linesOff_of_idle, engineEdge_idle, ?step⟩
  case step =>
    intro s t hp h
    have hedge : engineEdge s.served = s.served := engineEdge_idle _ hp
    rcases step_cases s h with ⟨hr, rfl⟩ | ⟨-, ha, rfl⟩ | ⟨-, -, ha, -, hx⟩
    · simp [State.AcceptsCommand, accepts_iff, hr]
    · simp [State.AcceptsCommand, ha, innerEdge, hedge, hp]
    · rw [hedge] at hx
      simp [State.AcceptsCommand, ha, exec_phase_idle_iff (s := s.served) hp hx]

/-- Settles O36: the step is the halt of R147 with ERR_FSM set (`engineEdge_unreachable`). -/
theorem unreachablePhaseRecovers : Obligations.UnreachablePhaseRecovers := by
  refine ⟨fun s k hp => linesOff_of_inactive (by rw [hp]; rfl), ?step⟩
  case step =>
    intro s k hs hr hn hp
    obtain ⟨t, ht, hkept, hfsm⟩ := step_engineKept s hs hr hn
    rw [engineEdge_unreachable s hp] at hkept hfsm
    obtain ⟨hphase, hdig, hcnt, hlatch, hrun, hscan⟩ := hkept
    exact ⟨t, ht, hphase, hdig, hcnt, hlatch, hrun, hfsm, hscan, linesOff_of_idle hphase⟩

/-! START and TEARDOWN (43_refresh_engine.md R149, R151). -/

/-- A step that accepts a command is the command's meaning after the engine's edge. -/
theorem step_acceptsCommand {s : State} {i : Instr} (hs : s.resetSeen = true)
    (h : s.AcceptsCommand i) : step s = exec i (engineEdge s.served) := by
  rw [step_accepts s hs h.1, h.2]

/-- Settles O17: `exec_start` gives each field; a START in IDLE meets an edge that changes nothing, and
one in the last cycle of a pass an edge that leaves DIG_ON or IDLE at digit 0. -/
theorem startRunsTheEngine : Obligations.StartRunsTheEngine := by
  refine ⟨fun w => decodeCmd_start, ?exec, ?idle, ?last⟩
  case exec =>
    intro s
    exact ⟨_, exec_start s, rfl, rfl, rfl, rfl, rfl, rfl, ⟨fun _ => rfl, fun _ => rfl⟩,
      ⟨rfl, rfl, rfl⟩, ⟨rfl, rfl⟩, rfl, rfl, rfl, rfl⟩
  case idle =>
    intro s hs ha hp
    refine ⟨{ s.served with run := true, phase := .digOn, dig := 0 }, ?_, rfl, rfl, rfl, rfl⟩
    rw [step_acceptsCommand hs ha, engineEdge_idle s.served hp, exec_start_idle s.served hp]
  case last =>
    intro s hs ha hp hd
    refine ⟨_, (step_acceptsCommand hs ha).trans (exec_start _), ?_, ?_, rfl⟩
    all_goals
      rw [engineEdge_digOff_last s.served hp hd]
      cases hrun : s.run <;> simp [hrun]

/-- Settles O19: TEARDOWN is `halt`, applied after an edge that leaves the buffer and ERR_ILLEGAL alone
and counts the pass it ends (`step_scanCount`). -/
theorem teardownStopsAtOnce : Obligations.TeardownStopsAtOnce := by
  refine ⟨fun w => decodeCmd_teardown, ?exec, ?step,
    fun s hb => not_acceptsCommand_of_busy hb .teardown⟩
  case exec =>
    intro s
    exact ⟨s.halt, exec_teardown s, rfl, rfl, rfl, rfl, rfl, rfl, rfl, ⟨fun _ => rfl, fun _ => rfl⟩,
      ⟨rfl, rfl, rfl⟩, ⟨rfl, rfl⟩, rfl, rfl, rfl, rfl⟩
  case step =>
    intro s hs ha
    have hstep : step s = .next (engineEdge s.served).halt := step_acceptsCommand hs ha
    obtain ⟨-, hr, -⟩ := (accepts_iff s).1 ha.1
    exact ⟨_, hstep, rfl, rfl, rfl, rfl, rfl, linesOff_of_idle rfl,
      ⟨engineEdge_segRow s.served, engineEdge_point s.served⟩, engineEdge_errIllegal s.served,
      step_scanCount hr hstep⟩

end Sys2Proof.Machine
end

section

namespace Sys2Proof.Machine

/-! Cycles that no reset and no TEARDOWN cuts: the place in the scan pass is what the engine's edge
makes of it, whatever else the host presents (43_refresh_engine.md R146, R160). -/

/-- The registers that say where in a scan pass the engine is, and what it shows. -/
abbrev PlaceKept (s t : State) : Prop :=
  t.phase = s.phase ∧ t.dig = s.dig ∧ t.dwellCnt = s.dwellCnt ∧ t.latch = s.latch

theorem not_calls_idle (i : Instr) : ¬ Inputs.idle.Calls i := fun h => Bool.false_ne_true h.1

theorem uncut_idle : Inputs.idle.Uncut := ⟨rfl, not_calls_idle .teardown⟩

section
variable {s t : State} {i : Instr} {n : Nat}

theorem calls_of_acceptsCommand (h : s.AcceptsCommand i) : s.presented.Calls i :=
  ⟨((accepts_iff s).1 h.1).1, h.2⟩

/-- TEARDOWN, and START from IDLE, are the only instructions that move the engine. -/
theorem exec_placeKept (h : exec i s = .next t) (hteardown : i ≠ .teardown)
    (hstart : i = .start → s.phase ≠ .idle) : PlaceKept s t := by
  cases i with
  | teardown => exact absurd rfl hteardown
  | start =>
    rw [exec_start_running s (hstart rfl)] at h
    cases h
    exact ⟨rfl, rfl, rfl, rfl⟩
  | _ =>
    cases h
    exact ⟨rfl, rfl, rfl, rfl⟩

theorem step_placeKept (hr : s.presented.rst = false) (hteardown : ¬ s.AcceptsCommand .teardown)
    (hstart : s.AcceptsCommand .start → (engineEdge s).phase ≠ .idle) (h : step s = .next t) :
    PlaceKept (engineEdge s) t := by
  rcases step_cases s h with ⟨hrst, -⟩ | ⟨-, -, rfl⟩ | ⟨-, -, ha, -, hx⟩
  · simp [hr] at hrst
  · simp [PlaceKept, innerEdge, engineEdge_served]
  · have hlive : decodeCmd s.presented.cmd = .start → (engineEdge s.served).phase ≠ .idle := by
      rw [engineEdge_served]
      exact fun e => hstart ⟨ha, e⟩
    have hkept := exec_placeKept hx (fun e => hteardown ⟨ha, e⟩) hlive
    rwa [engineEdge_served] at hkept

/-- An uncut cycle in which the engine does not come to IDLE. -/
theorem step_uncut (hs : s.resetSeen = true) (hu : s.presented.Uncut)
    (hlive : (engineEdge s).phase ≠ .idle) :
    ∃ t, step s = .next t ∧ PlaceKept (engineEdge s) t := by
  obtain ⟨t, ht⟩ := step_answers s hs
  exact ⟨t, ht, step_placeKept hu.1 (fun h => hu.2 (calls_of_acceptsCommand h)) (fun _ => hlive) ht⟩

theorem step_resetSeen (hs : s.resetSeen = true) (h : step s = .next t) : t.resetSeen = true :=
  (step_modelFields s h).2.2.2 hs

theorem step_host (h : step s = .next t) : t.host = s.host.tail :=
  (step_modelFields s h).2.1

theorem reaches_resetSeen (hs : s.resetSeen = true) (h : Reaches n s t) : t.resetSeen = true := by
  induction n generalizing s with
  | zero => rwa [(reaches_zero s).1 h]
  | succ n ih =>
    obtain ⟨u, hu, hrun⟩ := (reaches_succ s).1 h
    exact ih (step_resetSeen hs hu) hrun

/-- What the host is known to present `n` cycles on, where idle inputs meet the condition. -/
theorem presented_of_reaches {P : Inputs → Prop} (h : Reaches n s t)
    (hP : ∀ i ∈ s.host.take (n + 1), P i) (idle : P Inputs.idle) : P t.presented := by
  induction n generalizing s with
  | zero =>
    rw [(reaches_zero s).1 h]
    exact presented_of_take s hP idle
  | succ n ih =>
    obtain ⟨u, hu, hrun⟩ := (reaches_succ s).1 h
    exact ih hrun (step_host hu ▸ tail_of_take s hP)

theorem reaches_one (h : step s = .next t) : Reaches 1 s t :=
  (reaches_succ s).2 ⟨t, h, rfl⟩

/-! The dwell (43_refresh_engine.md R143). -/

/-- SEG_ON stays for as many cycles as DWELL_CNT says, the digit and the latch with it. -/
theorem reaches_segOn {j : Nat} (hs : s.resetSeen = true) (hp : s.phase = .segOn)
    (hj : j ≤ s.dwellCnt) (hu : ∀ i ∈ s.host.take j, i.Uncut) :
    ∃ t, Reaches j s t ∧ t.phase = .segOn ∧ t.dig = s.dig ∧ t.latch = s.latch ∧
      t.dwellCnt = s.dwellCnt - j := by
  induction j generalizing s with
  | zero => exact ⟨s, rfl, hp, rfl, rfl, rfl⟩
  | succ j ih =>
    have hedge := engineEdge_segOn_holds s hp (by omega)
    obtain ⟨v, hv, hkept⟩ := step_uncut hs (presented_of_take s hu uncut_idle) (by simp [hedge, hp])
    rw [hedge] at hkept
    obtain ⟨hphase, hdig, hcnt, hlatch⟩ := hkept
    obtain ⟨t, ht, hphase', hdig', hlatch', hcnt'⟩ := ih (step_resetSeen hs hv) (hphase.trans hp)
      (by rw [hcnt]; exact Nat.le_sub_of_add_le hj) (step_host hv ▸ tail_of_take s hu)
    refine ⟨t, (reaches_succ s).2 ⟨v, hv, ht⟩, hphase', hdig'.trans hdig, hlatch'.trans hlatch, ?_⟩
    rw [hcnt', hcnt, Nat.sub_sub, Nat.add_comm 1 j]

theorem reaches_segOff (hs : s.resetSeen = true) (hp : s.phase = .segOn)
    (hu : ∀ i ∈ s.host.take (s.dwellCnt + 1), i.Uncut) :
    ∃ t, Reaches (s.dwellCnt + 1) s t ∧ t.phase = .segOff := by
  obtain ⟨v, hv, hphase, -, -, hcnt⟩ := reaches_segOn hs hp (Nat.le_refl _) fun i hi =>
    hu i (List.take_subset_take_left _ (Nat.le_succ _) hi)
  have hedge := engineEdge_segOn_done v hphase (hcnt.trans (Nat.sub_self _))
  obtain ⟨t, ht, hkept⟩ := step_uncut (reaches_resetSeen hs hv)
    (presented_of_reaches hv hu uncut_idle) (by simp [hedge])
  rw [hedge] at hkept
  exact ⟨t, reaches_add s hv (reaches_one ht), hkept.1⟩

end

/-- Settles O32: one step is the edge of SEG_ON, with DWELL_CNT 0 or not; `reaches_segOn` and
`reaches_segOff` iterate it, from the count that DIG_ON loads in the last clause. -/
theorem segOnHoldsForTheDwell : Obligations.SegOnHoldsForTheDwell := by
  refine ⟨?step, ?dwell, ?digit⟩
  case step =>
    intro s hs hr hn hp
    obtain ⟨t, ht, hkept, hfsm⟩ := step_engineKept s hs hr hn
    by_cases hc : s.dwellCnt = 0
    · rw [engineEdge_segOn_done s hp hc] at hkept hfsm
      obtain ⟨hphase, hdig, hcnt, hlatch, hrun, hscan⟩ := hkept
      refine ⟨t, ht, hdig, hrun, hscan, hfsm, ?_⟩
      rw [if_pos hc]
      exact ⟨hphase, hlatch, hcnt.trans hc⟩
    · rw [engineEdge_segOn_holds s hp hc] at hkept hfsm
      obtain ⟨hphase, hdig, hcnt, hlatch, hrun, hscan⟩ := hkept
      refine ⟨t, ht, hdig, hrun, hscan, hfsm, ?_⟩
      rw [if_neg hc]
      exact ⟨hphase.trans hp, hlatch, hcnt⟩
  case dwell =>
    intro s hs hp hu
    exact ⟨fun j hj => reaches_segOn hs hp hj fun i hi =>
      hu i (List.take_subset_take_left _ (Nat.le_succ_of_le hj) hi), reaches_segOff hs hp hu⟩
  case digit =>
    intro s hs hp hu
    have hedge := engineEdge_digOn s hp
    obtain ⟨v, hv, hkept⟩ :=
      step_uncut hs (presented_of_take s hu uncut_idle) (by simp [hedge, digOnEdge])
    rw [hedge] at hkept
    obtain ⟨hphase, -, hcnt, -⟩ := hkept
    have hdwell : s.cfg.dwellCycles = v.dwellCnt + 1 := congrArg (· + 1) hcnt.symm
    rw [hdwell] at hu ⊢
    have hseen := step_resetSeen hs hv
    have huv : ∀ i ∈ v.host.take (v.dwellCnt + 1), i.Uncut := step_host hv ▸ tail_of_take s hu
    refine ⟨fun j hpos hj => ?_, ?_⟩
    · obtain ⟨j, rfl⟩ := Nat.exists_eq_add_of_le' hpos
      obtain ⟨t, ht, hphase', -⟩ := reaches_segOn hseen hphase (Nat.le_of_succ_le_succ hj)
        fun i hi => huv i (List.take_subset_take_left _ (Nat.le_of_succ_le hj) hi)
      exact ⟨t, (reaches_succ s).2 ⟨v, hv, ht⟩, hphase'⟩
    · obtain ⟨t, ht, hphase'⟩ := reaches_segOff hseen hphase huv
      exact ⟨t, (reaches_succ s).2 ⟨v, hv, ht⟩, hphase'⟩

end Sys2Proof.Machine
end

section

namespace Sys2Proof.Machine

/-! What the engine's edge can do, once; and the number of cycles a stopped engine takes to IDLE
(43_refresh_engine.md R142 to R150). -/

/-- The moves of the engine's edge, one for each branch of R142 to R148. -/
inductive EngineMove (s : State) : State → Prop where
  | idle : s.phase = .idle → EngineMove s s
  | load : s.phase = .digOn → EngineMove s (digOnEdge s)
  | hold : s.phase = .segOn → s.dwellCnt ≠ 0 → EngineMove s { s with dwellCnt := s.dwellCnt - 1 }
  | dark : s.phase = .segOn → s.dwellCnt = 0 →
      EngineMove s { s with phase := .segOff, latch := 0#8 }
  | release : s.phase = .segOff → EngineMove s (segOffEdge s)
  | next : s.phase = .digOff → s.dig.val < 3 →
      EngineMove s { s with dig := s.dig + 1, phase := .digOn }
  | last : s.phase = .digOff → s.dig = 3 →
      EngineMove s { s with
        scanCount := s.scanCount + 1#16
        dig := 0
        phase := if s.run then .digOn else .idle }
  | recover (k : Fin 3) : s.phase = .unreachable k → EngineMove s s.halt.raiseFsm

theorem engineEdge_move (s : State) : EngineMove s (engineEdge s) := by
  cases hp : s.phase with
  | idle =>
    rw [engineEdge_idle s hp]
    exact .idle hp
  | digOn => exact engineEdge_digOn s hp ▸ .load hp
  | segOn =>
    by_cases hc : s.dwellCnt = 0
    · exact engineEdge_segOn_done s hp hc ▸ .dark hp hc
    · exact engineEdge_segOn_holds s hp hc ▸ .hold hp hc
  | segOff => exact engineEdge_segOff s hp ▸ .release hp
  | digOff =>
    by_cases hd : s.dig = 3
    · exact engineEdge_digOff_last s hp hd ▸ .last hp hd
    · have hlt := val_lt_three_of_ne hd
      exact engineEdge_digOff_next s hp hlt ▸ .next hp hlt
  | unreachable k => exact engineEdge_unreachable s hp ▸ .recover k hp

/-- The cycles a stopped engine still takes to the end of its pass (R146): what is left of the digit,
and P for each digit after it. -/
def State.passLeft (s : State) : Nat :=
  match s.phase with
  | .idle => 0
  | .digOn => (3 - s.dig.val) * s.cfg.digitCycles + s.cfg.digitCycles
  | .segOn => (3 - s.dig.val) * s.cfg.digitCycles + (s.dwellCnt + 3)
  | .segOff => (3 - s.dig.val) * s.cfg.digitCycles + 2
  | .digOff => (3 - s.dig.val) * s.cfg.digitCycles + 1
  | .unreachable _ => 1

/-- RUN is 0, and the phase is one of the five that a run from reset reaches. -/
def State.Stopping (s : State) : Prop := s.run = false ∧ ∀ k, s.phase ≠ .unreachable k

section
variable {s t : State} {i : Instr} {n : Nat}

theorem passLeft_eq_zero_iff : s.passLeft = 0 ↔ s.phase = .idle := by
  cases hp : s.phase <;> simp [State.passLeft, hp, Config.digitCycles]

theorem passLeft_congr (hcfg : t.cfg = s.cfg) (hkept : PlaceKept s t) :
    t.passLeft = s.passLeft := by
  obtain ⟨hphase, hdig, hcnt, -⟩ := hkept
  simp only [State.passLeft, hcfg, hphase, hdig, hcnt]

theorem passLeft_le (h : s.dwellCnt ≤ s.cfg.reload.toNat) :
    s.passLeft ≤ 4 * s.cfg.digitCycles := by
  have hdigits : (3 - s.dig.val) * s.cfg.digitCycles ≤ 3 * s.cfg.digitCycles :=
    Nat.mul_le_mul_right _ (Nat.sub_le ..)
  have hcycles : s.cfg.digitCycles = s.cfg.reload.toNat + 4 := rfl
  cases hp : s.phase <;> simp only [State.passLeft, hp] <;> omega

/-! The moves, fact by fact. -/

/-- A stopped engine is one cycle nearer to the end of its pass after each edge. -/
theorem EngineMove.passLeft (h : EngineMove s t) (hrun : s.run = false) :
    t.passLeft = s.passLeft - 1 := by
  cases h with
  | idle hp => simp [State.passLeft, hp]
  | load hp =>
    simp [State.passLeft, hp, digOnEdge, Config.digitCycles, Config.dwellCycles, Nat.add_assoc]
  | hold hp hc =>
    simp only [State.passLeft, hp]
    omega
  | dark hp hc => simp [State.passLeft, hp, hc]
  | release hp => simp [State.passLeft, hp, segOffEdge]
  | next hp hd =>
    have hdigits : 3 - s.dig.val = 3 - (s.dig + 1).val + 1 := by
      rw [val_add_one_of_lt_three hd]
      omega
    simp [State.passLeft, hp, hdigits, Nat.succ_mul]
  | last hp hd => simp [State.passLeft, hp, hd, hrun]
  | recover k hp => simp [State.passLeft, hp]

theorem EngineMove.dwellCnt_le (h : EngineMove s t) (hle : s.dwellCnt ≤ s.cfg.reload.toNat) :
    t.dwellCnt ≤ s.cfg.reload.toNat := by
  cases h with
  | load => exact Nat.le_refl _
  | hold => exact Nat.le_trans (Nat.sub_le ..) hle
  | recover => exact Nat.zero_le _
  | _ => exact hle

theorem EngineMove.run_of_stopped (h : EngineMove s t) (hrun : s.run = false) : t.run = false := by
  cases h with
  | recover => rfl
  | _ => exact hrun

/-- The engine's edge leads to no unreachable phase, from whatever phase. -/
theorem EngineMove.phase_ne_unreachable (h : EngineMove s t) (k : Fin 3) :
    t.phase ≠ .unreachable k := by
  cases h with
  | idle hp => simp [hp]
  | hold hp => simp [hp]
  | last =>
    cases hrun : s.run <;> simp
  | _ => exact Phase.noConfusion

/-- What brings the engine to IDLE, or leaves it there, without a command (R145, R147, R148). -/
theorem EngineMove.phase_idle_iff (h : EngineMove s t) :
    t.phase = .idle ↔ s.phase = .idle ∨ (∃ k, s.phase = .unreachable k) ∨
      (s.phase = .digOff ∧ s.dig = 3 ∧ s.run = false) := by
  cases h with
  | load hp => simp [hp, digOnEdge]
  | release hp => simp [hp, segOffEdge]
  | next hp hd => simp [hp, show s.dig ≠ 3 from Fin.ne_of_lt hd]
  | last hp hd => simp [hp, hd]
  | recover k hp => simp [hp]
  | idle hp | hold hp | dark hp => simp [hp]

/-! Steps and runs without START. -/

theorem exec_run_of_stopped (h : exec i s = .next t) (hstart : i ≠ .start) (hrun : s.run = false) :
    t.run = false := by
  cases i with
  | start => exact absurd rfl hstart
  | stop | teardown => cases h; rfl
  | _ => cases h; exact hrun

theorem step_run_of_stopped (hstart : ¬ s.AcceptsCommand .start) (hrun : s.run = false)
    (h : step s = .next t) : t.run = false := by
  have hedge := (engineEdge_move s.served).run_of_stopped hrun
  rcases step_cases s h with ⟨-, rfl⟩ | ⟨-, -, rfl⟩ | ⟨-, -, ha, -, hx⟩
  · rfl
  · exact (sequencerEdge_run _).trans hedge
  · exact exec_run_of_stopped hx (fun e => hstart ⟨ha, e⟩) hedge

/-- Without START the engine is stopped by a reset or TEARDOWN, or goes where its edge leads. -/
theorem step_idle_or_placeKept (hs : s.resetSeen = true) (hstart : ¬ s.AcceptsCommand .start)
    (h : step s = .next t) : t.phase = .idle ∨ PlaceKept (engineEdge s) t := by
  cases hr : s.presented.rst with
  | true =>
    rw [step_reset s hr] at h
    cases h
    exact .inl rfl
  | false =>
    by_cases hteardown : s.AcceptsCommand .teardown
    · rw [step_acceptsCommand hs hteardown] at h
      cases h
      exact .inl rfl
    · exact .inr (step_placeKept hr hteardown (fun e => absurd e hstart) h)

theorem step_passLeft_le (hs : s.resetSeen = true) (hstart : ¬ s.AcceptsCommand .start)
    (hrun : s.run = false) (h : step s = .next t) : t.passLeft ≤ s.passLeft - 1 := by
  rcases step_idle_or_placeKept hs hstart h with hidle | hkept
  · rw [passLeft_eq_zero_iff.2 hidle]
    exact Nat.zero_le _
  · have hcfg : t.cfg = (engineEdge s).cfg := (step_modelFields s h).1.trans (engineEdge_cfg s).symm
    rw [passLeft_congr hcfg hkept, (engineEdge_move s).passLeft hrun]

theorem step_stopping (hs : s.resetSeen = true) (hstart : ¬ s.AcceptsCommand .start)
    (hrun : s.run = false) (h : step s = .next t) : t.Stopping := by
  refine ⟨step_run_of_stopped hstart hrun h, fun k => ?_⟩
  rcases step_idle_or_placeKept hs hstart h with hidle | ⟨hphase, -⟩
  · simp [hidle]
  · rw [hphase]
    exact (engineEdge_move s).phase_ne_unreachable k

theorem not_acceptsStart_of_take (hno : ∀ i ∈ s.host.take (n + 1), ¬ i.Calls .start) :
    ¬ s.AcceptsCommand .start := fun h =>
  presented_of_take s hno (not_calls_idle .start) (calls_of_acceptsCommand h)

theorem reaches_stopping (hs : s.resetSeen = true) (hstop : s.Stopping)
    (hno : ∀ i ∈ s.host.take n, ¬ i.Calls .start) (h : Reaches n s t) : t.Stopping := by
  induction n generalizing s with
  | zero => rwa [(reaches_zero s).1 h]
  | succ n ih =>
    obtain ⟨u, hu, hrun⟩ := (reaches_succ s).1 h
    exact ih (step_resetSeen hs hu) (step_stopping hs (not_acceptsStart_of_take hno) hstop.1 hu)
      (step_host hu ▸ tail_of_take s hno) hrun

theorem reaches_idle_of_stopped (hs : s.resetSeen = true) (hrun : s.run = false)
    (hle : s.passLeft ≤ n) (hno : ∀ i ∈ s.host.take n, ¬ i.Calls .start) :
    ∃ t, Reaches n s t ∧ t.phase = .idle := by
  induction n generalizing s with
  | zero => exact ⟨s, rfl, passLeft_eq_zero_iff.1 (Nat.le_zero.1 hle)⟩
  | succ n ih =>
    obtain ⟨u, hu⟩ := step_answers s hs
    have hstart := not_acceptsStart_of_take hno
    have hleft := step_passLeft_le hs hstart hrun hu
    obtain ⟨t, ht, hidle⟩ := ih (step_resetSeen hs hu) (step_run_of_stopped hstart hrun hu)
      (by omega) (step_host hu ▸ tail_of_take s hno)
    exact ⟨t, (reaches_succ s).2 ⟨u, hu, ht⟩, hidle⟩

/-! The step that accepts STOP (R150). -/

theorem step_stop (hs : s.resetSeen = true) (ha : s.AcceptsCommand .stop) :
    step s = .next { engineEdge s.served with run := false } :=
  step_acceptsCommand hs ha

theorem step_stop_stopping (hs : s.resetSeen = true) (ha : s.AcceptsCommand .stop)
    (h : step s = .next t) : t.Stopping := by
  rw [step_stop hs ha] at h
  cases h
  exact ⟨rfl, (engineEdge_move s.served).phase_ne_unreachable⟩

theorem dwellCnt_le_of_inv (h : s.Inv) : s.dwellCnt ≤ s.cfg.reload.toNat := by
  obtain ⟨-, hoff, hon, -⟩ := h
  by_cases hp : s.phase = .segOn
  · exact hon hp
  · rw [(hoff hp).1]
    exact Nat.zero_le _

/-- The edge of the STOP can still begin a pass, which then takes 4 x P cycles. -/
theorem step_stop_passLeft_le (hs : s.resetSeen = true) (hinv : s.Inv)
    (ha : s.AcceptsCommand .stop) (h : step s = .next t) :
    t.passLeft ≤ 4 * s.cfg.digitCycles := by
  have hcfg := (step_modelFields s h).1
  rw [step_stop hs ha] at h
  cases h
  rw [← hcfg]
  exact passLeft_le (by
    rw [hcfg]
    exact (engineEdge_move s.served).dwellCnt_le (dwellCnt_le_of_inv hinv))

/-- A stopped engine comes to IDLE at the end of its pass, and not before. -/
theorem step_stopping_idle_iff (hs : s.resetSeen = true) (hstop : s.Stopping)
    (hu : s.presented.Uncut) (hstart : ¬ s.AcceptsCommand .start) (hp : s.phase ≠ .idle) :
    ∃ t, step s = .next t ∧ (t.phase = .idle ↔ s.phase = .digOff ∧ s.dig = 3) := by
  obtain ⟨hrun, hreach⟩ := hstop
  obtain ⟨t, ht⟩ := step_answers s hs
  obtain ⟨hphase, -⟩ := step_placeKept hu.1 (fun h => hu.2 (calls_of_acceptsCommand h))
    (fun h => absurd h hstart) ht
  refine ⟨t, ht, ?_⟩
  rw [hphase, (engineEdge_move s).phase_idle_iff]
  simp [hp, hreach, hrun]

end

/-- Settles O41: after the STOP the engine is stopped with at most one pass left
(`step_stop_passLeft_le`); each edge takes one cycle off it (`EngineMove.passLeft`), and only the
end of the pass leads to IDLE. -/
theorem stopHaltsWithinOnePass : Obligations.StopHaltsWithinOnePass := by
  refine ⟨fun w => decodeCmd_stop, fun s => ⟨_, exec_stop s, rfl, rfl⟩, ?last, ?idle, ?pass,
    ?bound⟩
  case last =>
    intro s hs ha hp hd hrun
    refine ⟨_, step_stop hs ha, ?_, ?_, rfl⟩
    all_goals simp [engineEdge_digOff_last s.served hp hd, hrun]
  case idle =>
    intro s hs hinv ha hp
    obtain ⟨-, -, -, hidle, -⟩ := hinv
    refine ⟨_, step_stop hs ha, ?_⟩
    rw [engineEdge_idle s.served hp]
    exact ⟨⟨fun _ => rfl, fun _ => rfl⟩, ⟨rfl, rfl, rfl, rfl, (hidle hp).symm, rfl⟩,
      ⟨rfl, rfl, rfl⟩, rfl, rfl⟩
  case pass =>
    intro n s u hs _ ha hu hno hpos hrun hp
    obtain ⟨m, rfl⟩ := Nat.exists_eq_add_of_le' hpos
    obtain ⟨v, hv, hvu⟩ := (reaches_succ s).1 hrun
    rw [← step_host hv] at hno
    have hseen := step_resetSeen hs hv
    have hstop : u.Stopping := reaches_stopping hseen (step_stop_stopping hs ha hv)
      (fun i hi => hno i (List.take_subset_take_left _ (Nat.le_succ m) hi)) hvu
    have hstart : ¬ u.presented.Calls .start :=
      presented_of_reaches hvu hno (not_calls_idle .start)
    exact step_stopping_idle_iff (reaches_resetSeen hseen hvu) hstop
      (presented_of_reaches hrun hu uncut_idle) (fun h => hstart (calls_of_acceptsCommand h)) hp
  case bound =>
    intro s hs hinv ha hno
    obtain ⟨v, hv⟩ := step_answers s hs
    obtain ⟨t, ht, hidle⟩ := reaches_idle_of_stopped (step_resetSeen hs hv)
      (step_stop_stopping hs ha hv).1 (step_stop_passLeft_le hs hinv ha hv) (step_host hv ▸ hno)
    exact ⟨t, (reaches_succ s).2 ⟨v, hv, ht⟩, hidle, linesOff_of_idle hidle⟩

end Sys2Proof.Machine
end

section

namespace Sys2Proof.Machine

/-! Reset (70_reset_and_hazards.md R200). -/

theorem cmdReady_of_rst {s : State} (h : s.presented.rst = true) : s.cmdReady = false := by
  simp [State.cmdReady, h]

/-- Settles O54: the next state is the cleared registers (`step_reset`), whatever the rest of `s`
holds, and its phase IDLE turns every line off. -/
theorem resetReachesTheResetState : Obligations.ResetReachesTheResetState := by
  intro s hrst
  refine ⟨cmdReady_of_rst hrst, _, step_reset s hrst, segRow_resetRegisters _,
    point_resetRegisters _, ?registers⟩
  case registers =>
    exact ⟨rfl, rfl, rfl, rfl, rfl, rfl, rfl, rfl, rfl, rfl, rfl, linesOff_of_idle rfl⟩

end Sys2Proof.Machine
end

section

namespace Sys2Proof

/-! The encoder and the decoder undo each other (30_encoding.md R70, R71, R75 to R77). -/

theorem patternOf_cmdWord (op : BitVec 4) (pos : DigitPosition) (v : Bool) (pat : Pattern) :
    patternOf (cmdWord op pos v (pat.setWidth 32)) = pat := by
  rw [patternOf, dataOf_cmdWord]
  ext i hi
  simp [hi, Nat.lt_trans hi (by decide : 7 < 32)]

theorem reservedOpcode_iff (op : BitVec 4) : reservedOpcode op = true ↔ 0x8#4 ≤ op := by
  revert op
  decide

theorem decodeCmd_cmdWord_setstr (c0 c1 c2 c3 : CharCode) :
    decodeCmd (cmdWord 0x4#4 0 false (packChars c0 c1 c2 c3)) = .setstr c0 c1 c2 c3 := by
  have hchar : ∀ j, charAt (packChars c0 c1 c2 c3) j = ![c0, c1, c2, c3] j :=
    charAt_packChars ![c0, c1, c2, c3]
  rw [decodeCmd_setstr (opcodeOf_cmdWord ..), dataOf_cmdWord]
  simp [hchar]

/-- Settles O1: each field of a built word is read back as it was put in. -/
theorem decodeUndoesEncode : Obligations.DecodeUndoesEncode := by
  intro i hwf
  cases i with
  | nop => exact decodeCmd_nop (opcodeOf_cmdWord 0x0#4 0 false 0#32)
  | clear => exact decodeCmd_clear (opcodeOf_cmdWord 0x1#4 0 false 0#32)
  | setdig pos pat =>
    refine (decodeCmd_setdig (opcodeOf_cmdWord ..)).trans ?_
    rw [posOf_cmdWord, patternOf_cmdWord]
  | setpt pos v =>
    refine (decodeCmd_setpt (opcodeOf_cmdWord ..)).trans ?_
    rw [posOf_cmdWord, valueOf_cmdWord]
  | setstr c0 c1 c2 c3 => exact decodeCmd_cmdWord_setstr c0 c1 c2 c3
  | start => exact decodeCmd_start (opcodeOf_cmdWord 0x5#4 0 false 0#32)
  | stop => exact decodeCmd_stop (opcodeOf_cmdWord 0x6#4 0 false 0#32)
  | teardown => exact decodeCmd_teardown (opcodeOf_cmdWord 0x7#4 0 false 0#32)
  | reserved op =>
    have hop := (reservedOpcode_iff op).1 hwf
    refine (decodeCmd_reserved ?_).trans ?_
    · rwa [opcodeOf_cmdWord]
    · rw [opcodeOf_cmdWord]
  | encode c => rfl

theorem ofNat_posOf (w : CmdWord) : BitVec.ofNat 2 (posOf w).val = w.extractLsb' 34 2 :=
  BitVec.eq_of_toNat_eq (Nat.mod_eq_of_lt (posOf w).isLt)

theorem ofNat_and_position (p q : DigitPosition) :
    BitVec.ofNat 2 (p &&& q).val = BitVec.ofNat 2 p.val &&& BitVec.ofNat 2 q.val := by
  revert p q
  decide

/-- A mask that holds OP in full and has RSV 0 acts field by field. -/
theorem and_cmdWord (w : CmdWord) (pos : DigitPosition) (v : Bool) (data : CharWord) :
    w &&& cmdWord 0xF#4 pos v data =
      cmdWord (opcodeOf w) (posOf w &&& pos) (valueOf w && v) (dataOf w &&& data) := by
  have hop : opcodeOf w = opcodeOf w &&& 0xF#4 := BitVec.and_allOnes.symm
  rw [hop]
  apply BitVec.eq_of_getLsbD_eq
  intro i hi
  rw [BitVec.getLsbD_and, getLsbD_cmdWord, getLsbD_cmdWord, ofNat_and_position, ofNat_posOf]
  simp only [BitVec.getLsbD_and, opcodeOf, valueOf, dataOf, BitVec.getLsbD_extractLsb']
  by_cases hdata : i < 32
  · simp [hdata]
  by_cases hrsv : i = 32
  · simp [hrsv]
  by_cases hval : i = 33
  · simp [hval]
  by_cases hpos : i < 36
  · simp [hdata, hrsv, hval, hpos, show i - 34 < 2 by omega, show 34 + (i - 34) = i by omega]
  · simp [hdata, hrsv, hval, hpos, show i - 36 < 4 by omega, show 36 + (i - 36) = i by omega]

theorem and_patternMask (data : CharWord) :
    data &&& 0x7F#32 = (data.extractLsb' 0 7).setWidth 32 := by
  apply BitVec.eq_of_toNat_eq
  rw [BitVec.toNat_setWidth_of_le (by decide), BitVec.extractLsb'_toNat, Nat.shiftRight_zero,
    BitVec.toNat_and]
  exact Nat.and_two_pow_sub_one_eq_mod data.toNat 7

theorem position_and (pos : DigitPosition) : pos &&& 0 = 0 ∧ pos &&& 3 = pos := by
  revert pos
  decide

/-! What each mask of R76 leaves of a word. -/

theorem and_opcodeMask_eq_cmdWord (w : CmdWord) :
    w &&& 0xF000000000#40 = cmdWord (opcodeOf w) 0 false 0#32 := by
  refine (and_cmdWord w 0 false 0#32).trans ?_
  rw [(position_and _).1, Bool.and_false, BitVec.and_zero]

theorem and_setdigMask (w : CmdWord) :
    w &&& 0xFC0000007F#40 = cmdWord (opcodeOf w) (posOf w) false ((patternOf w).setWidth 32) := by
  refine (and_cmdWord w 3 false 0x7F#32).trans ?_
  rw [(position_and _).2, Bool.and_false, and_patternMask, patternOf]

theorem and_setptMask (w : CmdWord) :
    w &&& 0xFE00000000#40 = cmdWord (opcodeOf w) (posOf w) (valueOf w) 0#32 := by
  refine (and_cmdWord w 3 true 0#32).trans ?_
  rw [(position_and _).2, Bool.and_true, BitVec.and_zero]

theorem and_setstrMask (w : CmdWord) :
    w &&& 0xF0FFFFFFFF#40 = cmdWord (opcodeOf w) 0 false (dataOf w) := by
  refine (and_cmdWord w 0 false (BitVec.allOnes 32)).trans ?_
  rw [(position_and _).1, Bool.and_false, BitVec.and_allOnes]

theorem usedBits_of_eight_le {op : BitVec 4} (h : 0x8#4 ≤ op) :
    Machine.usedBits op = 0xF000000000#40 := by
  revert op
  decide

/-- Settles O2: under its mask a word is the word built from the fields that its command uses. -/
theorem encodeUndoesDecodeUpToIgnoredBits : Obligations.EncodeUndoesDecodeUpToIgnoredBits := by
  intro w
  rcases opcode_cases (opcodeOf w) with h | h | h | h | h | h | h | h | h
  · rw [decodeCmd_nop h, h]
    exact ⟨congrArg _ (h ▸ and_opcodeMask_eq_cmdWord w).symm, rfl⟩
  · rw [decodeCmd_clear h, h]
    exact ⟨congrArg _ (h ▸ and_opcodeMask_eq_cmdWord w).symm, rfl⟩
  · rw [decodeCmd_setdig h, h]
    exact ⟨congrArg _ (h ▸ and_setdigMask w).symm, rfl⟩
  · rw [decodeCmd_setpt h, h]
    exact ⟨congrArg _ (h ▸ and_setptMask w).symm, rfl⟩
  · rw [decodeCmd_setstr h, h, encode, packChars_charAt]
    exact ⟨congrArg _ (h ▸ and_setstrMask w).symm, rfl⟩
  · rw [decodeCmd_start h, h]
    exact ⟨congrArg _ (h ▸ and_opcodeMask_eq_cmdWord w).symm, rfl⟩
  · rw [decodeCmd_stop h, h]
    exact ⟨congrArg _ (h ▸ and_opcodeMask_eq_cmdWord w).symm, rfl⟩
  · rw [decodeCmd_teardown h, h]
    exact ⟨congrArg _ (h ▸ and_opcodeMask_eq_cmdWord w).symm, rfl⟩
  · rw [decodeCmd_reserved h, usedBits_of_eight_le h]
    exact ⟨congrArg _ (and_opcodeMask_eq_cmdWord w).symm, (reservedOpcode_iff _).2 h⟩

/-- Settles O5: the decoder is run on each of the words. -/
theorem referenceWordsDecode : Obligations.ReferenceWordsDecode :=
  ⟨rfl, rfl, rfl, rfl, rfl, rfl, rfl, rfl, rfl, rfl, rfl⟩

end Sys2Proof
end

section

namespace Sys2Proof.Machine

/-! The register invariant (10_state.md R35): the reset state has it, and each part of a cycle keeps
it. -/

section
variable {s t : State} {i : Instr}

/-- What reset establishes and each part of a cycle keeps, every step keeps (43_refresh_engine.md
R160). -/
theorem step_preserves {P : State → Prop} (hreset : ∀ u : State, P u.resetRegisters)
    (hserved : ∀ u : State, P u → P u.served) (hedge : ∀ {u v}, EngineMove u v → P u → P v)
    (hseq : ∀ {u : State}, P u → P (sequencerEdge u))
    (hexec : ∀ {i u v}, exec i u = .next v → P u → P v) (hs : P s) (h : step s = .next t) : P t := by
  have hengine : P (engineEdge s.served) := hedge (engineEdge_move _) (hserved s hs)
  rcases step_cases s h with ⟨-, rfl⟩ | ⟨-, -, rfl⟩ | ⟨-, -, -, -, hx⟩
  · exact hreset _
  · exact hseq hengine
  · exact hexec hx hengine

theorem resetRegisters_inv (s : State) : s.resetRegisters.Inv :=
  ⟨fun _ => Phase.noConfusion, fun _ => ⟨rfl, rfl⟩, fun _ => Nat.zero_le _, fun _ => rfl,
    fun _ => rfl, rfl⟩

theorem EngineMove.inv (h : EngineMove s t) (hinv : s.Inv) : t.Inv := by
  obtain ⟨hreach, hoff, hon, hidle, hready, hfsm⟩ := hinv
  cases h with
  | idle => exact ⟨hreach, hoff, hon, hidle, hready, hfsm⟩
  | load =>
    exact ⟨fun _ => Phase.noConfusion, fun h => absurd rfl h, fun _ => Nat.le_refl _,
      Phase.noConfusion, hready, hfsm⟩
  | hold hp =>
    exact ⟨hreach, fun h => absurd hp h, fun _ => Nat.le_trans (Nat.sub_le ..) (hon hp), hidle,
      hready, hfsm⟩
  | dark hp hc =>
    exact ⟨fun _ => Phase.noConfusion, fun _ => ⟨hc, rfl⟩, Phase.noConfusion, Phase.noConfusion,
      hready, hfsm⟩
  | release hp =>
    exact ⟨fun _ => Phase.noConfusion, fun _ => hoff (by simp [hp]), Phase.noConfusion,
      Phase.noConfusion, hready, hfsm⟩
  | next hp =>
    exact ⟨fun _ => Phase.noConfusion, fun _ => hoff (by simp [hp]), Phase.noConfusion,
      Phase.noConfusion, hready, hfsm⟩
  | last hp =>
    refine ⟨?_, fun _ => hoff (by simp [hp]), ?_, ?_, hready, hfsm⟩ <;> cases hrun : s.run <;> simp
  | recover k hp => exact absurd hp (hreach k)

theorem sequencerEdge_wrIdx_of_ready (h : s.busy = false → s.wrIdx = 0) :
    (sequencerEdge s).busy = false → (sequencerEdge s).wrIdx = 0 := by
  cases hb : s.busy with
  | false =>
    rw [sequencerEdge_ready s hb]
    exact h
  | true =>
    obtain ⟨hbusy, hidx, -⟩ := sequencerEdge_busy_spec s hb
    rw [hbusy, hidx]
    by_cases hlast : s.wrIdx = 3 <;> simp [hlast]

theorem sequencerEdge_inv (hinv : s.Inv) : (sequencerEdge s).Inv := by
  obtain ⟨hreach, hoff, hon, hidle, hready, hfsm⟩ := hinv
  refine ⟨?_, ?_, ?_, ?_, sequencerEdge_wrIdx_of_ready hready, (sequencerEdge_errFsm s).trans hfsm⟩
  all_goals simpa

theorem exec_inv (h : exec i s = .next t) (hinv : s.Inv) : t.Inv := by
  obtain ⟨hreach, hoff, hon, hidle, hready, hfsm⟩ := hinv
  cases i with
  | start =>
    by_cases hp : s.phase = .idle
    · rw [exec_start_idle s hp] at h
      cases h
      exact ⟨fun _ => Phase.noConfusion, fun _ => hoff (by simp [hp]), Phase.noConfusion,
        Phase.noConfusion, hready, hfsm⟩
    · rw [exec_start_running s hp] at h
      cases h
      exact ⟨hreach, hoff, hon, fun h => absurd h hp, hready, hfsm⟩
  | stop => cases h; exact ⟨hreach, hoff, hon, fun _ => rfl, hready, hfsm⟩
  | teardown =>
    cases h
    exact ⟨fun _ => Phase.noConfusion, fun _ => ⟨rfl, rfl⟩, fun _ => Nat.zero_le _, fun _ => rfl,
      hready, hfsm⟩
  | setstr => cases h; exact ⟨hreach, hoff, hon, hidle, Bool.noConfusion, hfsm⟩
  | _ => cases h; exact ⟨hreach, hoff, hon, hidle, hready, hfsm⟩

end

/-- Settles O43: reset establishes the invariant, and the three parts of a cycle each keep it. -/
theorem registerInvariantIsKept : Obligations.RegisterInvariantIsKept := fun _ _ hinv h =>
  step_preserves resetRegisters_inv (fun _ h => h) EngineMove.inv sequencerEdge_inv exec_inv hinv h

/-- Settles O44: both are states of cleared registers. -/
theorem registerInvariantHoldsAfterReset : Obligations.RegisterInvariantHoldsAfterReset := by
  refine ⟨resetRegisters_inv State.reset, fun s t hr h => ?_⟩
  rw [step_reset s hr] at h
  cases h
  exact resetRegisters_inv _

/-! The ranges of WR_IDX, DIG and DWELL_CNT (10_state.md R27, R31). -/

section
variable {s t : State} {i : Instr}

theorem add_one_ne_zero_of_ne_three {d : DigitPosition} (h : d ≠ 3) : d + 1 ≠ 0 := by
  revert d
  decide

theorem sequencerEdge_busy_iff (h : s.busy = true ↔ s.wrIdx ≠ 0) :
    (sequencerEdge s).busy = true ↔ (sequencerEdge s).wrIdx ≠ 0 := by
  cases hb : s.busy with
  | false =>
    rw [sequencerEdge_ready s hb]
    exact h
  | true =>
    obtain ⟨hbusy, hidx, -⟩ := sequencerEdge_busy_spec s hb
    rw [hbusy, hidx]
    by_cases hlast : s.wrIdx = 3
    · simp [hlast]
    · simp [hlast, add_one_ne_zero_of_ne_three hlast]

theorem exec_busy_iff (h : exec i s = .next t) (hs : s.busy = true ↔ s.wrIdx ≠ 0) :
    t.busy = true ↔ t.wrIdx ≠ 0 := by
  cases i with
  | start =>
    rw [exec_start] at h
    cases h
    exact hs
  | setstr =>
    cases h
    simp
  | _ =>
    cases h
    exact hs

theorem EngineMove.busy_iff (h : EngineMove s t) (hs : s.busy = true ↔ s.wrIdx ≠ 0) :
    t.busy = true ↔ t.wrIdx ≠ 0 := by
  cases h <;> exact hs

theorem EngineMove.dig_of_idle (h : EngineMove s t) (hs : s.phase = .idle → s.dig = 0) :
    t.phase = .idle → t.dig = 0 := by
  cases h with
  | load => exact Phase.noConfusion
  | dark => exact Phase.noConfusion
  | release => exact Phase.noConfusion
  | next => exact Phase.noConfusion
  | idle | hold => exact hs
  | last | recover => exact fun _ => rfl

theorem exec_dig_of_idle (h : exec i s = .next t) (hs : s.phase = .idle → s.dig = 0) :
    t.phase = .idle → t.dig = 0 := by
  cases i with
  | start =>
    rw [exec_start] at h
    cases h
    by_cases hp : s.phase = .idle <;> simp [hp]
  | teardown =>
    cases h
    exact fun _ => rfl
  | _ =>
    cases h
    exact hs

theorem EngineMove.dwellCnt_lt (h : EngineMove s t) (hs : s.dwellCnt < 2 ^ s.cfg.dw) :
    t.dwellCnt < 2 ^ t.cfg.dw := by
  cases h with
  | load => exact s.cfg.reload.isLt
  | hold => exact Nat.lt_of_le_of_lt (Nat.sub_le ..) hs
  | recover => exact Nat.two_pow_pos _
  | _ => exact hs

theorem exec_dwellCnt_lt (h : exec i s = .next t) (hs : s.dwellCnt < 2 ^ s.cfg.dw) :
    t.dwellCnt < 2 ^ t.cfg.dw := by
  cases i with
  | start =>
    rw [exec_start] at h
    cases h
    exact hs
  | teardown =>
    cases h
    exact Nat.two_pow_pos _
  | _ =>
    cases h
    exact hs

end

/-- Settles O45: each of the three holds after reset and is kept by every part of a cycle
(`step_preserves`). -/
theorem indicesAndCounterStayInRange : Obligations.IndicesAndCounterStayInRange := by
  refine ⟨fun s t hs h => ?index, fun s t hs h => ?digit, fun s t hs h => ?count⟩
  case index =>
    exact step_preserves (P := fun u => u.busy = true ↔ u.wrIdx ≠ 0) (fun _ => by simp)
      (fun _ h => h) EngineMove.busy_iff sequencerEdge_busy_iff exec_busy_iff hs h
  case digit =>
    exact step_preserves (P := fun u => u.phase = .idle → u.dig = 0) (fun _ _ => rfl)
      (fun _ h => h) EngineMove.dig_of_idle (fun h => by simpa using h) exec_dig_of_idle hs h
  case count =>
    exact step_preserves (P := fun u => u.dwellCnt < 2 ^ u.cfg.dw) (fun _ => Nat.two_pow_pos _)
      (fun _ h => h) EngineMove.dwellCnt_lt (fun h => by simpa using h) exec_dwellCnt_lt hs h

end Sys2Proof.Machine
end

section

namespace Sys2Proof.Machine

/-! What the engine depends on (60_exceptions.md R192): its own control registers and the
parameters, and for LATCH the buffer besides. -/

section
variable {s s' t t' : State} {i : Instr}

theorem sameControl_symm (h : SameEngineControl s t) : SameEngineControl t s := by
  obtain ⟨hphase, hdig, hcnt, hrun, hscan, hfsm⟩ := h
  exact ⟨hphase.symm, hdig.symm, hcnt.symm, hrun.symm, hscan.symm, hfsm.symm⟩

theorem sameControl_trans (h : SameEngineControl s t) (h' : SameEngineControl t t') :
    SameEngineControl s t' := by
  obtain ⟨hphase, hdig, hcnt, hrun, hscan, hfsm⟩ := h
  obtain ⟨hphase', hdig', hcnt', hrun', hscan', hfsm'⟩ := h'
  exact ⟨hphase'.trans hphase, hdig'.trans hdig, hcnt'.trans hcnt, hrun'.trans hrun,
    hscan'.trans hscan, hfsm'.trans hfsm⟩

/-- The engine's edge acts alike on states with the same control registers. -/
theorem engineEdge_sameControl (h : SameEngineControl s s') (hcfg : s'.cfg = s.cfg) :
    SameEngineControl (engineEdge s) (engineEdge s') := by
  obtain ⟨hphase, hdig, hcnt, hrun, hscan, hfsm⟩ := h
  have hkept : s'.scanCount = s.scanCount ∧ s'.errFsm = s.errFsm := ⟨hscan, hfsm⟩
  cases hp : s.phase with
  | idle =>
    rw [engineEdge_idle s hp, engineEdge_idle s' (hphase.trans hp)]
    exact ⟨hphase, hdig, hcnt, hrun, hkept⟩
  | digOn =>
    rw [engineEdge_digOn s hp, engineEdge_digOn s' (hphase.trans hp)]
    exact ⟨rfl, hdig, congrArg (·.reload.toNat) hcfg, hrun, hkept⟩
  | segOn =>
    by_cases hc : s.dwellCnt = 0
    · rw [engineEdge_segOn_done s hp hc, engineEdge_segOn_done s' (hphase.trans hp) (hcnt.trans hc)]
      exact ⟨rfl, hdig, hcnt, hrun, hkept⟩
    · rw [engineEdge_segOn_holds s hp hc, engineEdge_segOn_holds s' (hphase.trans hp) (hcnt ▸ hc)]
      exact ⟨hphase, hdig, congrArg (· - 1) hcnt, hrun, hkept⟩
  | segOff =>
    rw [engineEdge_segOff s hp, engineEdge_segOff s' (hphase.trans hp)]
    exact ⟨rfl, hdig, hcnt, hrun, hkept⟩
  | digOff =>
    by_cases hd : s.dig = 3
    · rw [engineEdge_digOff_last s hp hd, engineEdge_digOff_last s' (hphase.trans hp) (hdig.trans hd)]
      exact ⟨by simp only [hrun], rfl, hcnt, hrun, congrArg (· + 1#16) hscan, hfsm⟩
    · have hlt := val_lt_three_of_ne hd
      rw [engineEdge_digOff_next s hp hlt, engineEdge_digOff_next s' (hphase.trans hp) (hdig ▸ hlt)]
      exact ⟨rfl, congrArg (· + 1) hdig, hcnt, hrun, hkept⟩
  | unreachable k =>
    rw [engineEdge_unreachable s hp, engineEdge_unreachable s' (hphase.trans hp)]
    exact ⟨rfl, rfl, rfl, rfl, hscan, rfl⟩

/-- LATCH after the engine's edge: loaded in DIG_ON (R142), cleared at the end of SEG_ON (R143) and
in an unreachable phase (R147). -/
theorem EngineMove.latch (h : EngineMove s t) :
    t.latch =
      match s.phase with
      | .digOn => s.lineRow s.dig
      | .segOn => if s.dwellCnt = 0 then 0#8 else s.latch
      | .unreachable _ => 0#8
      | _ => s.latch := by
  cases h with
  | load hp => rw [hp, digOnEdge]
  | hold hp hc => rw [hp, if_neg hc]
  | dark hp hc => rw [hp, if_pos hc]
  | release hp => rw [hp, segOffEdge]
  | recover k hp => rw [hp, raiseFsm_latch, halt_latch]
  | idle hp | next hp | last hp => rw [hp]

theorem engineEdge_latch_congr (h : SameEngineControl s s') (hbuf : BufferKept s s')
    (hlatch : s'.latch = s.latch) : (engineEdge s').latch = (engineEdge s).latch := by
  obtain ⟨hphase, hdig, hcnt, -⟩ := h
  have hrow : s'.lineRow s'.dig = s.lineRow s.dig := by
    rw [State.lineRow, State.lineRow, hdig, hbuf.1, hbuf.2]
  rw [(engineEdge_move s').latch, (engineEdge_move s).latch, hphase, hcnt, hrow, hlatch]

theorem exec_sameControl (h : SameEngineControl s s') (ht : exec i s = .next t)
    (ht' : exec i s' = .next t') : SameEngineControl t t' := by
  obtain ⟨hphase, hdig, hcnt, hrun, hscan, hfsm⟩ := h
  cases i with
  | start =>
    rw [exec_start] at ht ht'
    cases ht
    cases ht'
    exact ⟨by simp only [hphase], by simp only [hphase, hdig], hcnt, rfl, hscan, hfsm⟩
  | stop =>
    cases ht
    cases ht'
    exact ⟨hphase, hdig, hcnt, rfl, hscan, hfsm⟩
  | teardown =>
    cases ht
    cases ht'
    exact ⟨rfl, rfl, rfl, rfl, hscan, hfsm⟩
  | _ =>
    cases ht
    cases ht'
    exact ⟨hphase, hdig, hcnt, hrun, hscan, hfsm⟩

/-- `step_engineKept` for a given next state, LATCH left out. -/
theorem step_sameControl_engineEdge (hs : s.resetSeen = true) (hr : s.presented.rst = false)
    (hn : s.NoEngineCommand) (h : step s = .next t) : SameEngineControl (engineEdge s) t := by
  obtain ⟨u, hu, ⟨hphase, hdig, hcnt, -, hrun, hscan⟩, hfsm⟩ := step_engineKept s hs hr hn
  rw [hu] at h
  cases h
  exact ⟨hphase, hdig, hcnt, hrun, hscan, hfsm⟩

/-- A step acts alike on the control registers where it takes the same command for the engine, or
none. -/
theorem step_sameControl (hs : s.resetSeen = true) (hs' : s'.resetSeen = true)
    (h : SameEngineControl s s') (hcfg : s'.cfg = s.cfg)
    (hrst : s'.presented.rst = s.presented.rst)
    (hcmd : ∀ c ∈ [Instr.start, .stop, .teardown], s'.AcceptsCommand c ↔ s.AcceptsCommand c)
    (ht : step s = .next t) (ht' : step s' = .next t') : SameEngineControl t t' := by
  cases hr : s.presented.rst with
  | true =>
    rw [step_reset s hr] at ht
    rw [step_reset s' (hrst.trans hr)] at ht'
    cases ht
    cases ht'
    exact ⟨rfl, rfl, rfl, rfl, rfl, rfl⟩
  | false =>
    by_cases hc : ∃ c ∈ [Instr.start, .stop, .teardown], s.AcceptsCommand c
    · obtain ⟨c, hmem, ha⟩ := hc
      rw [step_acceptsCommand hs ha] at ht
      rw [step_acceptsCommand hs' ((hcmd c hmem).2 ha)] at ht'
      exact exec_sameControl (engineEdge_sameControl (s := s.served) (s' := s'.served) h hcfg) ht ht'
    · have hnone : s.NoEngineCommand :=
        ⟨fun h => hc ⟨_, by simp, h⟩, fun h => hc ⟨_, by simp, h⟩, fun h => hc ⟨_, by simp, h⟩⟩
      have hnone' : s'.NoEngineCommand := by
        simpa only [State.NoEngineCommand, hcmd .start (by simp), hcmd .stop (by simp),
          hcmd .teardown (by simp)] using hnone
      exact sameControl_trans (sameControl_symm (step_sameControl_engineEdge hs hr hnone ht))
        (sameControl_trans (engineEdge_sameControl h hcfg)
          (step_sameControl_engineEdge hs' (hrst.trans hr) hnone' ht'))

end

/-- Settles O50: the step acts alike on the control registers (`step_sameControl`), and on LATCH
where the engine's edge loads the same row. -/
theorem hostReachesTheEngineOnlyThroughItsCommands :
    Obligations.HostReachesTheEngineOnlyThroughItsCommands := by
  intro s s' hs hs' hsame hcfg hrst hcmd
  obtain ⟨t, ht⟩ := step_answers s hs
  obtain ⟨t', ht'⟩ := step_answers s' hs'
  refine ⟨t, t', ht, ht', step_sameControl hs hs' hsame hcfg hrst hcmd ht ht', fun hbuf hlatch => ?_⟩
  rw [step_latch s ht, step_latch s' ht', engineEdge_latch_congr hsame hbuf hlatch, hrst]
  simp only [hcmd .teardown (by simp)]

end Sys2Proof.Machine
end

section

namespace Sys2Proof.Machine

/-! What a step does to the engine under each of the engine's commands (43_refresh_engine.md R149 to
R151, R160). -/

section
variable {s t : State} {i : Instr}

/-- A step that accepted a command, whatever the command, is its meaning after the engine's edge. -/
theorem exec_of_acceptsCommand (h : step s = .next t) (ha : s.AcceptsCommand i) :
    exec i (engineEdge s.served) = .next t := by
  obtain ⟨haccepts, hdecode⟩ := ha
  rcases step_cases s h with ⟨hr, -⟩ | ⟨-, hnot, -⟩ | ⟨-, -, -, -, hx⟩
  · obtain ⟨-, hr', -⟩ := (accepts_iff s).1 haccepts
    simp [hr] at hr'
  · simp [haccepts] at hnot
  · rwa [hdecode] at hx

theorem EngineMove.run_eq (h : EngineMove s t) (hreach : ∀ k, s.phase ≠ .unreachable k) :
    t.run = s.run := by
  cases h with
  | recover k hp => exact absurd hp (hreach k)
  | _ => rfl

theorem exec_run_eq (h : exec i s = .next t) (hstart : i ≠ .start) (hstop : i ≠ .stop)
    (hteardown : i ≠ .teardown) : t.run = s.run := by
  obtain ⟨-, -, -, -, hrun, -⟩ := exec_engineKept s h hstart hstop hteardown
  exact hrun

/-- With no command for the engine RUN is what the engine's edge makes of it. -/
theorem step_run_of_noEngineCommand (h : step s = .next t) (hr : s.presented.rst = false)
    (hn : s.NoEngineCommand) : t.run = (engineEdge s.served).run := by
  obtain ⟨hstart, hstop, hteardown⟩ := hn
  rcases step_cases s h with ⟨hrst, -⟩ | ⟨-, -, rfl⟩ | ⟨-, -, ha, -, hx⟩
  · simp [hr] at hrst
  · exact sequencerEdge_run _
  · exact exec_run_eq hx (fun e => hstart ⟨ha, e⟩) (fun e => hstop ⟨ha, e⟩)
      fun e => hteardown ⟨ha, e⟩

theorem phase_ne_idle_of_exec_start (h : exec .start s = .next t) : t.phase ≠ .idle := by
  rw [exec_start] at h
  cases h
  by_cases hp : s.phase = .idle <;> simp [hp]

theorem step_phase_idle_of_shutdown (h : step s = .next t)
    (hdown : s.presented.rst = true ∨ s.AcceptsCommand .teardown) : t.phase = .idle := by
  rcases hdown with hr | ha
  · rw [step_reset s hr] at h
    cases h
    rfl
  · have hx := exec_of_acceptsCommand h ha
    cases hx
    rfl

/-- How a step comes to IDLE (60_exceptions.md R185). -/
theorem step_idle_ways (h : step s = .next t) (hidle : t.phase = .idle) :
    s.presented.rst = true ∨ s.AcceptsCommand .teardown ∨ (engineEdge s).phase = .idle := by
  by_cases hr : s.presented.rst = true
  · exact .inl hr
  by_cases hteardown : s.AcceptsCommand .teardown
  · exact .inr (.inl hteardown)
  have hstart : ¬ s.AcceptsCommand .start := fun ha =>
    phase_ne_idle_of_exec_start (exec_of_acceptsCommand h ha) hidle
  obtain ⟨hphase, -⟩ :=
    step_placeKept (Bool.eq_false_iff.2 hr) hteardown (fun ha => absurd ha hstart) h
  exact .inr (.inr (hphase.symm.trans hidle))

theorem getLsbD_segLine (j : SegmentLine) :
    s.segLine.getLsbD j.val = lineLevel (s.segOn j) s.cfg.segOnLevel := by
  rw [State.segLine, BitVec.getLsbD_ofFnLE, dif_pos j.isLt]

end

/-- Settles O48: of the ways to IDLE (`step_idle_ways`) the engine's own edge takes R147's and
R145's alone, and IDLE has every line off. -/
theorem engineStopsOnlyInListedWays : Obligations.EngineStopsOnlyInListedWays := by
  intro s t hp h hidle
  refine ⟨?ways, linesOff_of_idle hidle⟩
  rcases step_idle_ways h hidle with hr | ha | hedge
  · exact .inl hr
  · exact .inr (.inl ha)
  · rcases (engineEdge_move s).phase_idle_iff.1 hedge with h | h | h
    · exact absurd h hp
    · exact .inr (.inr (.inl h))
    · exact .inr (.inr (.inr h))

/-- Settles O49: the three commands write RUN last, and without them it is the engine's edge's
(`step_run_of_noEngineCommand`). -/
theorem runFollowsItsCommands : Obligations.RunFollowsItsCommands := by
  intro s t h
  refine ⟨fun hr => ?reset, fun _ ha => ?start, fun _ ha => ?stop, fun hr hn hk => ?unreachable,
    fun hr hn hreach => ?kept⟩
  case reset =>
    rw [step_reset s hr] at h
    cases h
    rfl
  case start =>
    have hx := exec_of_acceptsCommand h ha
    rw [exec_start] at hx
    cases hx
    rfl
  case stop =>
    rcases ha with ha | ha
    all_goals
      have hx := exec_of_acceptsCommand h ha
      cases hx
      rfl
  case unreachable =>
    obtain ⟨k, hp⟩ := hk
    rw [step_run_of_noEngineCommand h hr hn, engineEdge_unreachable s.served hp]
    rfl
  case kept =>
    rw [step_run_of_noEngineCommand h hr hn]
    exact (engineEdge_move s.served).run_eq hreach

/-- Settles O57: both end in IDLE, whose lines are off and so at the off level. -/
theorem shutdownTurnsEveryLineOff : Obligations.ShutdownTurnsEveryLineOff := by
  intro s t h hdown
  have hoff := linesOff_of_idle (step_phase_idle_of_shutdown h hdown)
  refine ⟨hoff, fun i => ?_, fun j => ?_⟩
  · rw [getLsbD_digLine, hoff.1 i]
    rfl
  · rw [getLsbD_segLine, hoff.2 j]
    rfl

/-- Settles O53: a line's level is that of `segOn`. -/
theorem segmentLinesFollowTheLatch : Obligations.SegmentLinesFollowTheLatch := by
  intro s j
  refine (getLsbD_segLine j).trans ?_
  simp only [lineLevel, State.segOn, Bool.and_eq_true, decide_eq_true_eq]

end Sys2Proof.Machine
end

section

namespace Sys2Proof.Machine

/-! The cycle and the two ports (30_encoding.md R72, R73; 41_encoder_rom.md R105;
70_reset_and_hazards.md R202, R218). -/

theorem cmdReady_iff {s : State} :
    s.cmdReady = true ↔ s.presented.rst = false ∧ s.busy = false := by
  simp [State.cmdReady]

/-- Settles O8: acceptance is cmd_valid with cmd_ready, and cmd_ready is 0 in reset. -/
theorem acceptanceNeedsValidAndReady : Obligations.AcceptanceNeedsValidAndReady := by
  refine fun s => ⟨cmdReady_iff, ?_, rfl⟩
  rw [accepts_iff, cmdReady_iff]
  tauto

theorem withFetchWord_cmd (s : State) (w : CmdWord) :
    s.withFetchWord 40 w.toNat = s.presentWord (.cmd w) := by
  have hport : portWordOf 40 w.toNat = .ok (.cmd w) := by
    simp [portWordOf, Nat.not_le.2 w.isLt]
  rw [State.withFetchWord, State.placeBits, hport]

theorem withFetchWord_encChar (s : State) (c : CharCode) :
    s.withFetchWord 8 c.toNat = s.presentWord (.encChar c) := by
  have hport : portWordOf 8 c.toNat = .ok (.encChar c) := by
    simp [portWordOf, Nat.not_le.2 c.isLt]
  rw [State.withFetchWord, State.placeBits, hport]

/-- Settles O7: the two kinds of cycle are `step_accepts` and `step_noCommand`, and a placed word is
a presented one. -/
theorem stepRunsTheDecodedInstruction : Obligations.StepRunsTheDecodedInstruction := by
  refine ⟨step_accepts, fun s hs hr ha => step_noCommand s hr (.inl hs) ha, ?command, ?lookup⟩
  case command =>
    intro s w hs hb
    rw [withFetchWord_cmd]
    exact step_accepts (s.presentWord (.cmd w)) hs ((accepts_iff _).2 ⟨rfl, rfl, hb⟩)
  case lookup =>
    intro s c
    refine ⟨_, exec_encode s.nextCycle c, ?_⟩
    rw [withFetchWord_encChar, step_eq_clockEdge]
    rfl

/-- Settles O10: a step after the first reset answers a state after it. -/
theorem blockNeverHalts : Obligations.BlockNeverHalts := by
  intro n
  induction n with
  | zero => exact fun s hs => ⟨s, rfl, hs⟩
  | succ n ih =>
    intro s hs
    obtain ⟨u, hu⟩ := step_answers s hs
    obtain ⟨t, ht, hseen⟩ := ih u (step_resetSeen hs hu)
    exact ⟨t, (reaches_succ s).2 ⟨u, hu, ht⟩, hseen⟩

/-- Settles O22: a lookup writes the record alone, and no later part of the cycle does
(`step_modelFields`). -/
theorem lookupIsRecorded : Obligations.LookupIsRecorded := by
  refine ⟨exec_encode, fun s t h => ?_⟩
  obtain ⟨-, -, hpat, -⟩ := step_modelFields s h
  exact hpat

theorem resetSeen_step_iff {s t : State} (h : step s = .next t) :
    t.resetSeen = true ↔ s.presented.rst = true ∨ s.resetSeen = true := by
  rcases step_cases s h with ⟨hr, rfl⟩ | ⟨hr, -, rfl⟩ | ⟨hr, hs, -⟩
  · simp [hr]
  · simp [hr]
  · simp [hs, step_resetSeen hs h]

/-- Settles O56: the one fault of a step is `step_beforeReset`, and the first reset stays seen. -/
theorem runsBeforeTheFirstResetFault : Obligations.RunsBeforeTheFirstResetFault := by
  refine ⟨fun s hs hr hv => step_beforeReset s hr hs hv, fun s hs => ?before, fun s hs => ?after,
    fun s t => resetSeen_step_iff⟩
  case before => simp [sampleOutputs, hs]
  case after =>
    obtain ⟨t, ht⟩ := step_answers s hs
    refine ⟨by simp [sampleOutputs, hs], fun r h => ?_⟩
    rw [ht] at h
    cases h

/-- A quiescent cycle touches nothing but the host's schedule and the record of enc_pat. -/
theorem step_quiescent {s : State} (h : s.Quiescent) (hr : s.presented.rst = false)
    (hv : s.presented.cmdValid = false) : step s = .next s.served := by
  obtain ⟨hp, hb⟩ := h
  rw [step_noCommand s hr (.inr hv) (by simp [State.accepts, hv]), innerEdge_ready s.served hb,
    engineEdge_idle s.served hp]

theorem reaches_quiescent {n : Nat} {s : State} (h : s.Quiescent)
    (hnone : ∀ i ∈ s.host.take n, i.rst = false ∧ i.cmdValid = false) :
    ∃ l p, Reaches n s { s with host := l, encPat := p } := by
  induction n generalizing s with
  | zero => exact ⟨s.host, s.encPat, rfl⟩
  | succ n ih =>
    obtain ⟨hr, hv⟩ := presented_of_take s hnone ⟨rfl, rfl⟩
    obtain ⟨l, p, hrun⟩ := ih (s := s.served) h (tail_of_take s hnone)
    exact ⟨l, p, (reaches_succ s).2 ⟨_, step_quiescent h hr hv, hrun⟩⟩

/-- Settles O11: every register and line is read off a state that differs in the model's own fields
alone (`reaches_quiescent`). -/
theorem quiescentStateStays : Obligations.QuiescentStateStays := by
  intro n s h hnone
  obtain ⟨l, p, hrun⟩ := reaches_quiescent h hnone
  exact ⟨_, hrun, ⟨⟨fun _ => rfl, fun _ => rfl⟩, ⟨rfl, rfl, rfl, rfl, rfl, rfl⟩, ⟨rfl, rfl, rfl⟩,
    rfl, rfl⟩, rfl, rfl, rfl, rfl, rfl⟩

/-- Settles O55: the registers are read off the definition, and IDLE has every line off. -/
theorem resetStateHoldsTheResetValues : Obligations.ResetStateHoldsTheResetValues :=
  ⟨PerDigit.get_const 0#7, PerDigit.get_const false, rfl, rfl, rfl, rfl, rfl, rfl, rfl, rfl, rfl, rfl,
    rfl, rfl, linesOff_of_idle rfl⟩

/-- Settles O24: the ROM is read at each of the 256 codes. -/
theorem standardRomIsInjectiveUpToCase : Obligations.StandardRomIsInjectiveUpToCase := by
  unfold Obligations.StandardRomIsInjectiveUpToCase
  constructor
  · decide
  · decide

/-- Settles O18: STOP is the one write of RUN. -/
theorem stopClearsRun : Obligations.StopClearsRun := by
  refine ⟨fun w => decodeCmd_stop, fun s => ⟨_, exec_stop s, ?frame⟩, fun s hrun => ?same⟩
  case frame =>
    exact ⟨rfl, rfl, rfl, rfl, rfl, rfl, ⟨fun _ => rfl, fun _ => rfl⟩, ⟨rfl, rfl, rfl⟩, ⟨rfl, rfl⟩,
      rfl, rfl, rfl, rfl⟩
  case same => rw [exec_stop, ← hrun]

end Sys2Proof.Machine
end

section

namespace Sys2Proof.Machine

/-! What an instruction leaves of the buffer (20_memory.md R56, 10_state.md R22). -/

section
variable {s t : State} {i : Instr} {d : DigitPosition}

theorem exec_segRow_kept (h : exec i s = .next t) (hw : writesRow d i = false) :
    t.segRow d = s.segRow d := by
  cases i with
  | clear | setstr => exact Bool.noConfusion hw
  | setdig pos pat =>
    cases h
    exact (segRow_writeRow s pos d pat).trans (if_neg fun e => by simp [writesRow, e] at hw)
  | start =>
    rw [exec_start] at h
    cases h
    rfl
  | _ =>
    cases h
    rfl

theorem exec_point_kept (h : exec i s = .next t) (hw : writesPoint d i = false) :
    t.point d = s.point d := by
  cases i with
  | clear => exact Bool.noConfusion hw
  | setpt pos v =>
    cases h
    exact (point_writePoint s pos d v).trans (if_neg fun e => by simp [writesPoint, e] at hw)
  | start =>
    rw [exec_start] at h
    cases h
    rfl
  | _ =>
    cases h
    rfl

theorem exec_busy_kept (h : exec i s = .next t) (hw : writesRow d i = false) :
    t.busy = s.busy := by
  cases i with
  | setstr => exact Bool.noConfusion hw
  | start =>
    rw [exec_start] at h
    cases h
    rfl
  | _ =>
    cases h
    rfl

theorem writes_of_no_bufferOpcode {w : CmdWord}
    (h : ¬ (opcodeOf w = 0x1#4 ∨ opcodeOf w = 0x2#4 ∨ opcodeOf w = 0x3#4 ∨ opcodeOf w = 0x4#4))
    (d : DigitPosition) :
    writesRow d (decodeCmd w) = false ∧ writesPoint d (decodeCmd w) = false := by
  have hop := decodeCmd_opcode w
  cases hi : decodeCmd w with
  | clear =>
    rw [hi] at hop
    exact absurd (.inl hop) h
  | setdig =>
    rw [hi] at hop
    exact absurd (.inr (.inl hop.1)) h
  | setpt =>
    rw [hi] at hop
    exact absurd (.inr (.inr (.inl hop.1))) h
  | setstr =>
    rw [hi] at hop
    exact absurd (.inr (.inr (.inr hop.1))) h
  | _ => exact ⟨rfl, rfl⟩

end

/-- Settles O30: with the sequencer at rest only the command's part can write, and the opcodes of
R22 are the only ones that do. -/
theorem nothingElseWritesTheBuffer : Obligations.NothingElseWritesTheBuffer := by
  intro s t h hr hb hnot
  rcases step_cases s h with ⟨hrst, -⟩ | ⟨-, -, rfl⟩ | ⟨-, -, ha, -, hx⟩
  · simp [hr] at hrst
  · rw [innerEdge_ready s.served hb]
    exact ⟨engineEdge_segRow s.served, engineEdge_point s.served⟩
  · have hw := writes_of_no_bufferOpcode fun hop => hnot ⟨ha, hop⟩
    exact ⟨fun d => (exec_segRow_kept hx (hw d).1).trans (engineEdge_segRow s.served d),
      fun d => (exec_point_kept hx (hw d).2).trans (engineEdge_point s.served d)⟩

/-- Settles O29: the second write puts the same values in the same cells. -/
theorem bufferWritesAreIdempotent : Obligations.BufferWritesAreIdempotent := by
  intro i s t u hi ht hu
  rcases hi with rfl | ⟨pos, pat, rfl⟩ | ⟨pos, v, rfl⟩
  · cases ht
    cases hu
    exact ⟨fun _ => rfl, fun _ => rfl⟩
  · cases ht
    cases hu
    refine ⟨fun d => ?_, fun _ => rfl⟩
    by_cases hd : d = pos <;> simp [hd]
  · cases ht
    cases hu
    refine ⟨fun _ => rfl, fun d => ?_⟩
    by_cases hd : d = pos <;> simp [hd]

/-! A SETSTR edge by edge (42_buffer_commands.md R124, R125), and four SETDIG beside it (R127). -/

/-- Where the SETSTR of the codes `c` that is accepted in `s` stands after `j` edges. -/
structure SetstrProgress (s : State) (c : DigitPosition → CharCode) (j : Nat) (t : State) : Prop where
  row : ∀ d, t.segRow d = if d.val < j then enc s.cfg.glyph (c d) else s.segRow d
  point : ∀ d, t.point d = s.point d
  busy : t.busy = decide (0 < j ∧ j < 4)
  idx : 0 < j → t.wrIdx.val = j % 4
  chars : 0 < j → t.wrChars = packChars (c 0) (c 1) (c 2) (c 3)

/-- Where four SETDIG of the codes' patterns, presented from `s` on, stand after `j` edges. -/
structure SetdigsProgress (s : State) (c : DigitPosition → CharCode) (j : Nat) (t : State) : Prop where
  row : ∀ d, t.segRow d = if d.val < j then enc s.cfg.glyph (c d) else s.segRow d
  point : ∀ d, t.point d = s.point d
  busy : t.busy = false

section
variable {s t u : State} {c : DigitPosition → CharCode} {j n : Nat}

theorem busy_eq_false_of_accepts (h : s.accepts = true) : s.busy = false :=
  ((accepts_iff s).1 h).2.2

/-- The row written at the edge `j` joins those below `j`. -/
theorem row_succ {d : DigitPosition} {x : DigitPosition → Pattern} {y : Pattern} (hj : d.val = j)
    (e : DigitPosition) :
    (if e = d then x d else if e.val < j then x e else y) = if e.val < j + 1 then x e else y := by
  by_cases he : e = d
  · subst he
    simp [hj]
  · have hne : e.val ≠ j := fun h => he (Fin.ext (h.trans hj.symm))
    have hlt : e.val < j + 1 ↔ e.val < j := by omega
    simp [he, hlt]

theorem setstr_first (hs : s.resetSeen = true)
    (ha : s.AcceptsCommand (.setstr (c 0) (c 1) (c 2) (c 3))) :
    ∃ t, step s = .next t ∧ SetstrProgress s c 1 t := by
  refine ⟨_, step_acceptsCommand hs ha, fun d => ?_, fun d => ?_, rfl, fun _ => rfl, fun _ => rfl⟩
  · refine (segRow_writeChar (engineEdge s.served) 0 d (c 0)).trans ?_
    rw [engineEdge_segRow, engineEdge_cfg]
    exact row_succ (j := 0) (d := 0) (x := fun d => enc s.cfg.glyph (c d)) rfl d
  · exact engineEdge_point s.served d

theorem SetstrProgress.next (h : SetstrProgress s c j t) (hcfg : t.cfg = s.cfg) (hpos : 0 < j)
    (hj : j < 4) (hs : t.resetSeen = true) (hr : t.presented.rst = false) :
    ∃ u, step t = .next u ∧ SetstrProgress s c (j + 1) u := by
  have hbusy : t.busy = true := by simp [h.busy, hpos, hj]
  have hidx : t.wrIdx.val = j := (h.idx hpos).trans (Nat.mod_eq_of_lt hj)
  have hlast : t.wrIdx = 3 ↔ j = 3 := by rw [← hidx, Fin.ext_iff]; rfl
  have hchar : charAt t.wrChars t.wrIdx = c t.wrIdx := by rw [h.chars hpos, charAt_packChars]
  obtain ⟨hb, hw, hchars, hpoint, hrow⟩ := innerEdge_busy_spec t.served hbusy
  refine ⟨_, step_busy t hs hr hbusy, ?row, fun d => (hpoint d).trans (h.point d), ?busy,
    fun _ => ?idx, fun _ => hchars.trans (h.chars hpos)⟩
  case row =>
    intro d
    rw [hrow d, served_wrIdx, served_wrChars, hchar, served_cfg, hcfg, served_segRow, h.row d]
    exact row_succ (x := fun d => enc s.cfg.glyph (c d)) hidx d
  case busy =>
    rw [hb, served_wrIdx]
    by_cases h3 : j = 3
    · simp [hlast, h3]
    · have hmore : j + 1 < 4 := by omega
      simp [hlast, h3, hmore]
  case idx =>
    rw [hw, served_wrIdx]
    by_cases h3 : j = 3
    · simp [hlast, h3]
    · have hlt : j < 3 := Nat.lt_of_le_of_ne (Nat.le_of_lt_succ hj) h3
      rw [if_neg (mt hlast.1 h3), val_add_one_of_lt_three (hidx ▸ hlt), hidx]
      omega

theorem reaches_cfg (h : Reaches n s t) : t.cfg = s.cfg := by
  induction n generalizing s with
  | zero => rw [(reaches_zero s).1 h]
  | succ n ih =>
    obtain ⟨u, hu, hrun⟩ := (reaches_succ s).1 h
    exact (ih hrun).trans (step_modelFields s hu).1

theorem reaches_host (h : Reaches n s t) : t.host = s.host.drop n := by
  induction n generalizing s with
  | zero => rw [(reaches_zero s).1 h, List.drop_zero]
  | succ n ih =>
    obtain ⟨u, hu, hrun⟩ := (reaches_succ s).1 h
    rw [ih hrun, step_host hu, List.drop_tail]

/-- A run and one cycle more. -/
theorem reaches_snoc (h : Reaches n s t) (hu : step t = .next u) : Reaches (n + 1) s u :=
  reaches_add s h (reaches_one hu)

theorem take_mono {P : Inputs → Prop} {l : List Inputs} {m n : Nat} (hmn : m ≤ n)
    (h : ∀ i ∈ l.take n, P i) : ∀ i ∈ l.take m, P i :=
  fun i hi => h i (List.take_subset_take_left _ hmn hi)

theorem reaches_setstr (hs : s.resetSeen = true)
    (ha : s.AcceptsCommand (.setstr (c 0) (c 1) (c 2) (c 3)))
    (hrst : ∀ i ∈ s.host.take 4, i.rst = false) (hj : j ≤ 4) :
    ∃ t, Reaches j s t ∧ SetstrProgress s c j t := by
  induction j with
  | zero =>
    exact ⟨s, rfl, fun _ => rfl, fun _ => rfl, busy_eq_false_of_accepts ha.1,
      fun h => absurd h (Nat.lt_irrefl 0), fun h => absurd h (Nat.lt_irrefl 0)⟩
  | succ j ih =>
    obtain ⟨t, ht, hprogress⟩ := ih (Nat.le_of_succ_le hj)
    by_cases hpos : 0 < j
    · obtain ⟨u, hu, hnext⟩ := hprogress.next (reaches_cfg ht) hpos hj (reaches_resetSeen hs ht)
        (presented_of_reaches ht (take_mono hj hrst) rfl)
      exact ⟨u, reaches_snoc ht hu, hnext⟩
    · obtain rfl : j = 0 := Nat.eq_zero_of_not_pos hpos
      obtain ⟨u, hu, hfirst⟩ := setstr_first hs ha
      exact ⟨u, reaches_one hu, hfirst⟩

theorem SetdigsProgress.next (h : SetdigsProgress s c j t)
    (hs : t.resetSeen = true) (hr : t.presented.rst = false) {d : DigitPosition} (hd : d.val = j)
    (hcall : t.presented.Calls (.setdig d (enc s.cfg.glyph (c d)))) :
    ∃ u, step t = .next u ∧ SetdigsProgress s c (j + 1) u := by
  have ha : t.AcceptsCommand (.setdig d (enc s.cfg.glyph (c d))) :=
    ⟨(accepts_iff t).2 ⟨hcall.1, hr, h.busy⟩, hcall.2⟩
  refine ⟨_, step_acceptsCommand hs ha, fun e => ?_, fun e => ?_, ?_⟩
  · refine (segRow_writeRow (engineEdge t.served) d e _).trans ?_
    rw [engineEdge_segRow, served_segRow, h.row e]
    exact row_succ (x := fun d => enc s.cfg.glyph (c d)) hd e
  · exact (engineEdge_point t.served e).trans (h.point e)
  · exact (engineEdge_busy t.served).trans h.busy

theorem bufferKept_of_progress (h : SetstrProgress s c j t) (h' : SetdigsProgress s c j u) :
    BufferKept t u :=
  ⟨fun d => (h'.row d).trans (h.row d).symm, fun d => (h'.point d).trans (h.point d).symm⟩

theorem presented_after (h : Reaches n s t) : t.presented = s.host.getD n Inputs.idle := by
  rw [presented_eq_getD, reaches_host h, List.getD_eq_getElem?_getD, List.getElem?_drop,
    Nat.add_zero, List.getD_eq_getElem?_getD]

/-- Until it is through, a SETSTR lets no command in but itself. -/
theorem eq_setstr_of_acceptsCommand {i : Instr}
    (ha : s.AcceptsCommand (.setstr (c 0) (c 1) (c 2) (c 3))) (ht : Reaches j s t)
    (h : SetstrProgress s c j t) (hj : j < 4) (hi : t.AcceptsCommand i) :
    i = .setstr (c 0) (c 1) (c 2) (c 3) := by
  by_cases hpos : 0 < j
  · exact absurd hi (not_acceptsCommand_of_busy (by simp [h.busy, hpos, hj]) i)
  · obtain rfl : j = 0 := Nat.eq_zero_of_not_pos hpos
    obtain rfl := (reaches_zero s).1 ht
    exact hi.2.symm.trans ha.2

/-- The two runs side by side: the buffers agree by the progress on each side, and so, with no
command for the engine on either, do the engines (O50). -/
theorem reaches_setstr_beside_setdigs {l : List Inputs} (hs : s.resetSeen = true)
    (ha : s.AcceptsCommand (.setstr (c 0) (c 1) (c 2) (c 3)))
    (hrst : ∀ i ∈ s.host.take 4, i.rst = false)
    (hcalls : ∀ d : DigitPosition, (l.getD d.val Inputs.idle).rst = false ∧
      (l.getD d.val Inputs.idle).Calls (.setdig d (enc s.cfg.glyph (c d)))) (hj : j ≤ 4) :
    ∃ t t', Reaches j s t ∧ Reaches j { s with host := l } t' ∧ SetstrProgress s c j t ∧
      SetdigsProgress s c j t' ∧ SameEngineControl t t' ∧ t'.latch = t.latch := by
  have hs' : ({ s with host := l } : State).resetSeen = true := hs
  induction j with
  | zero =>
    obtain ⟨t, ht, hprogress⟩ := reaches_setstr hs ha hrst hj
    obtain rfl := (reaches_zero s).1 ht
    exact ⟨t, _, ht, rfl, hprogress,
      ⟨fun _ => rfl, fun _ => rfl, busy_eq_false_of_accepts (s := t) ha.1⟩,
      ⟨rfl, rfl, rfl, rfl, rfl, rfl⟩, rfl⟩
  | succ j ih =>
    obtain ⟨t, t', ht, ht', hstr, hdigs, hsame, hlatch⟩ := ih (Nat.le_of_succ_le hj)
    obtain ⟨hr', hcall⟩ := hcalls ⟨j, hj⟩
    rw [← presented_after ht'] at hr' hcall
    have hr : t.presented.rst = false := presented_of_reaches ht (take_mono hj hrst) rfl
    have hbuf := bufferKept_of_progress hstr hdigs
    have hnone : ∀ i ∈ [Instr.start, .stop, .teardown], t'.AcceptsCommand i ↔ t.AcceptsCommand i := by
      intro i hi
      refine iff_of_false (fun h => ?_) fun h => ?_
      · obtain rfl := h.2.symm.trans hcall.2
        simp at hi
      · obtain rfl := eq_setstr_of_acceptsCommand ha ht hstr hj h
        simp at hi
    obtain ⟨u, u', hu, hu', hsame', hlatch'⟩ := hostReachesTheEngineOnlyThroughItsCommands t t'
      (reaches_resetSeen hs ht) (reaches_resetSeen hs' ht') hsame
      ((reaches_cfg ht').trans (reaches_cfg ht).symm) (hr'.trans hr.symm) hnone
    obtain ⟨v, hv, hstr'⟩ := reaches_setstr hs ha hrst hj
    obtain ⟨v', hv', hdigs'⟩ := hdigs.next (reaches_resetSeen hs' ht') hr' rfl hcall
    obtain rfl := reaches_unique s hv (reaches_snoc ht hu)
    obtain rfl := reaches_unique t' (reaches_one hv') (reaches_one hu')
    exact ⟨v, v', hv, reaches_snoc ht' hu', hstr', hdigs', hsame', hlatch' hbuf hlatch⟩

end

/-- Settles O26: one cycle of the busy sequencer is `innerEdge_busy_spec`, and `reaches_setstr`
counts the edges of a SETSTR. -/
theorem setstrWritesOneRowAnEdge : Obligations.SetstrWritesOneRowAnEdge := by
  refine ⟨fun s hs hr hb => ?edge, fun s c hs ha hrst j hpos hj => ?edges⟩
  case edge =>
    obtain ⟨hbusy, hidx, hchars, hpoint, hrow⟩ := innerEdge_busy_spec s.served hb
    refine ⟨_, step_busy s hs hr hb, (hrow _).trans (if_pos rfl),
      fun d hd => (hrow d).trans (if_neg hd), hpoint, hbusy.trans ?_, hidx, hchars⟩
    by_cases hlast : s.wrIdx = 3 <;> simp [hlast]
  case edges =>
    obtain ⟨t, ht, hrow, hpoint, hbusy, hidx, hchars⟩ := reaches_setstr hs ha hrst hj
    refine ⟨t, ht, hrow, hpoint, hbusy.trans ?_, hidx hpos, hchars hpos⟩
    simp [Nat.lt_of_lt_of_le Nat.zero_lt_one hpos]

/-- Settles O27: both runs stand at the same buffer after each edge, and their engines stay alike
(`reaches_setstr_beside_setdigs`). -/
theorem setstrEqualsFourSetdig : Obligations.SetstrEqualsFourSetdig := by
  intro s s' c j hs ha hrst hs' hlen hcalls hj
  have hpresent : ∀ d : DigitPosition, (s'.host.getD d.val Inputs.idle).rst = false ∧
      (s'.host.getD d.val Inputs.idle).Calls (.setdig d (enc s.cfg.glyph (c d))) := by
    intro d
    have hd : d.val < s'.host.length := Nat.lt_of_lt_of_le d.isLt hlen
    rw [List.getD_eq_getElem _ _ hd]
    exact hcalls d _ (List.getElem?_eq_getElem hd)
  obtain ⟨t, t', ht, ht', hstr, hdigs, ⟨hphase, hdig, hcnt, hrun, hscan, -⟩, hlatch⟩ :=
    reaches_setstr_beside_setdigs hs ha hrst hpresent hj
  rw [← hs'] at ht'
  exact ⟨t, t', ht, ht', bufferKept_of_progress hstr hdigs, hphase, hdig, hcnt, hlatch, hrun, hscan⟩

end Sys2Proof.Machine
end

section

namespace Sys2Proof.Machine

/-! One uncut cycle in each phase of a digit (43_refresh_engine.md R142 to R145). -/

section
variable {s t : State}

theorem step_digOn_uncut (hs : s.resetSeen = true) (hu : s.presented.Uncut) (hp : s.phase = .digOn) :
    ∃ t, step s = .next t ∧ t.phase = .segOn ∧ t.dig = s.dig ∧ t.dwellCnt = s.cfg.reload.toNat ∧
      t.latch = s.lineRow s.dig := by
  have hedge := engineEdge_digOn s hp
  obtain ⟨t, ht, hkept⟩ := step_uncut hs hu (by simp [hedge, digOnEdge])
  rw [hedge] at hkept
  exact ⟨t, ht, hkept⟩

theorem step_segOn_done_uncut (hs : s.resetSeen = true) (hu : s.presented.Uncut)
    (hp : s.phase = .segOn) (hc : s.dwellCnt = 0) :
    ∃ t, step s = .next t ∧ t.phase = .segOff ∧ t.dig = s.dig := by
  have hedge := engineEdge_segOn_done s hp hc
  obtain ⟨t, ht, hkept⟩ := step_uncut hs hu (by simp [hedge])
  rw [hedge] at hkept
  obtain ⟨hphase, hdig, -⟩ := hkept
  exact ⟨t, ht, hphase, hdig⟩

theorem step_segOff_uncut (hs : s.resetSeen = true) (hu : s.presented.Uncut)
    (hp : s.phase = .segOff) : ∃ t, step s = .next t ∧ t.phase = .digOff ∧ t.dig = s.dig := by
  have hedge := engineEdge_segOff s hp
  obtain ⟨t, ht, hkept⟩ := step_uncut hs hu (by simp [hedge, segOffEdge])
  rw [hedge] at hkept
  obtain ⟨hphase, hdig, -⟩ := hkept
  exact ⟨t, ht, hphase, hdig⟩

theorem step_digOff_next_uncut (hs : s.resetSeen = true) (hu : s.presented.Uncut)
    (hp : s.phase = .digOff) (hd : s.dig.val < 3) :
    ∃ t, step s = .next t ∧ t.phase = .digOn ∧ t.dig.val = s.dig.val + 1 := by
  have hedge := engineEdge_digOff_next s hp hd
  obtain ⟨t, ht, hkept⟩ := step_uncut hs hu (by simp [hedge])
  rw [hedge] at hkept
  obtain ⟨hphase, hdig, -⟩ := hkept
  exact ⟨t, ht, hphase, hdig ▸ val_add_one_of_lt_three hd⟩

/-- The end of a pass leads to digit 0, in DIG_ON or, where RUN is 0 and no START comes, in IDLE. -/
theorem step_digOff_last_uncut (hs : s.resetSeen = true) (hu : s.presented.Uncut)
    (hp : s.phase = .digOff) (hd : s.dig = 3) :
    ∃ t, step s = .next t ∧ t.dig = 0 ∧ (t.phase = .digOn ∨ t.phase = .idle) := by
  obtain ⟨t, ht⟩ := step_answers s hs
  refine ⟨t, ht, ?_⟩
  by_cases hstart : s.AcceptsCommand .start
  · have hx := exec_of_acceptsCommand ht hstart
    rw [exec_start, engineEdge_digOff_last s.served hp hd] at hx
    cases hx
    cases hrun : s.run <;> simp [hrun]
  · have hkept := step_placeKept hu.1 (fun h => hu.2 (calls_of_acceptsCommand h))
      (fun h => absurd h hstart) ht
    rw [engineEdge_digOff_last s hp hd] at hkept
    obtain ⟨hphase, hdig, -⟩ := hkept
    refine ⟨hdig, ?_⟩
    rw [hphase]
    cases hrun : s.run <;> simp

end

/-! A digit from its DIG_ON to the next (R146). -/

section
variable {s : State} {k : Nat}

theorem segOn_of_lit {t : State} (hp : t.phase = .segOn) (j : SegmentLine) :
    t.segOn j = t.latch.getLsbD j.val := by
  simp [State.segOn, hp]

theorem reaches_lit (hs : s.resetSeen = true) (hp : s.phase = .digOn) (hpos : 1 ≤ k)
    (hk : k ≤ s.cfg.dwellCycles) (hu : ∀ i ∈ s.host.take k, i.Uncut) :
    ∃ t, Reaches k s t ∧ t.phase = .segOn ∧ t.dig = s.dig ∧ t.latch = s.lineRow s.dig ∧
      t.dwellCnt = s.cfg.dwellCycles - k := by
  obtain ⟨j, rfl⟩ := Nat.exists_eq_add_of_le' hpos
  obtain ⟨v, hv, hphase, hdig, hcnt, hlatch⟩ :=
    step_digOn_uncut hs (presented_of_take s hu uncut_idle) hp
  obtain ⟨t, ht, hphase', hdig', hlatch', hcnt'⟩ := reaches_segOn (j := j) (step_resetSeen hs hv) hphase
    (hcnt ▸ Nat.le_of_succ_le_succ hk) (step_host hv ▸ tail_of_take s hu)
  refine ⟨t, (reaches_succ s).2 ⟨v, hv, ht⟩, hphase', hdig'.trans hdig, hlatch'.trans hlatch, ?_⟩
  rw [hcnt', hcnt, Config.dwellCycles]
  omega

theorem reaches_dark (hs : s.resetSeen = true) (hp : s.phase = .digOn)
    (hu : ∀ i ∈ s.host.take s.cfg.digitCycles, i.Uncut) :
    ∃ t, Reaches (s.cfg.dwellCycles + 1) s t ∧ t.phase = .segOff ∧ t.dig = s.dig := by
  obtain ⟨v, hv, hphase, hdig, -, hcnt⟩ := reaches_lit hs hp (one_le_dwellCycles s.cfg)
    (Nat.le_refl _) (take_mono (Nat.le_add_right _ 3) hu)
  obtain ⟨t, ht, hphase', hdig'⟩ := step_segOn_done_uncut (reaches_resetSeen hs hv)
    (presented_of_reaches hv (take_mono (Nat.add_le_add_left (by decide : 1 ≤ 3) _) hu) uncut_idle)
    hphase (hcnt.trans (Nat.sub_self _))
  exact ⟨t, reaches_snoc hv ht, hphase', hdig'.trans hdig⟩

theorem reaches_released (hs : s.resetSeen = true) (hp : s.phase = .digOn)
    (hu : ∀ i ∈ s.host.take s.cfg.digitCycles, i.Uncut) :
    ∃ t, Reaches (s.cfg.dwellCycles + 2) s t ∧ t.phase = .digOff ∧ t.dig = s.dig := by
  obtain ⟨v, hv, hphase, hdig⟩ := reaches_dark hs hp hu
  obtain ⟨t, ht, hphase', hdig'⟩ := step_segOff_uncut (reaches_resetSeen hs hv)
    (presented_of_reaches hv (take_mono (Nat.add_le_add_left (by decide : 2 ≤ 3) _) hu) uncut_idle)
    hphase
  exact ⟨t, reaches_snoc hv ht, hphase', hdig'.trans hdig⟩

theorem reaches_nextDigit (hs : s.resetSeen = true) (hp : s.phase = .digOn)
    (hu : ∀ i ∈ s.host.take s.cfg.digitCycles, i.Uncut) :
    ∃ t, Reaches (s.cfg.dwellCycles + 3) s t ∧
      if s.dig.val < 3 then t.phase = .digOn ∧ t.dig.val = s.dig.val + 1
      else t.dig = 0 ∧ (t.phase = .digOn ∨ t.phase = .idle) := by
  obtain ⟨v, hv, hphase, hdig⟩ := reaches_released hs hp hu
  have hseen := reaches_resetSeen hs hv
  have huncut : v.presented.Uncut := presented_of_reaches hv hu uncut_idle
  rw [← hdig]
  by_cases hd : v.dig = 3
  · obtain ⟨t, ht, hnext⟩ := step_digOff_last_uncut hseen huncut hphase hd
    exact ⟨t, reaches_snoc hv ht, by rwa [if_neg (by rw [hd]; decide)]⟩
  · have hlt := val_lt_three_of_ne hd
    obtain ⟨t, ht, hnext⟩ := step_digOff_next_uncut hseen huncut hphase hlt
    exact ⟨t, reaches_snoc hv ht, by rwa [if_pos hlt]⟩

end

/-- Settles O37: the state `k` cycles on is the one that the lemma for the part of the digit `k` is
in leads to. -/
theorem digitFollowsItsSchedule : Obligations.DigitFollowsItsSchedule := by
  intro s hs hp hu k hk
  obtain ⟨t, ht, -⟩ := blockNeverHalts k s hs
  refine ⟨t, ht, ?digOn, ?lit, ?dark, ?released, ?next⟩
  case digOn =>
    rintro rfl
    obtain rfl := (reaches_zero s).1 ht
    exact ⟨hp, digOn_iff.2 ⟨.inl hp, rfl⟩, segOn_eq_false_of_ne (by simp [hp])⟩
  case lit =>
    rintro ⟨hpos, hlit⟩
    obtain ⟨u, hr, hphase, hdig, hlatch, -⟩ := reaches_lit hs hp hpos hlit (take_mono hk hu)
    obtain rfl := reaches_unique s ht hr
    exact ⟨hphase, digOn_iff.2 ⟨.inr (.inl hphase), hdig⟩, fun j => by rw [segOn_of_lit hphase, hlatch]⟩
  case dark =>
    rintro rfl
    obtain ⟨u, hr, hphase, hdig⟩ := reaches_dark hs hp hu
    obtain rfl := reaches_unique s ht hr
    exact ⟨hphase, digOn_iff.2 ⟨.inr (.inr hphase), hdig⟩, segOn_eq_false_of_ne (by simp [hphase])⟩
  case released =>
    rintro rfl
    obtain ⟨u, hr, hphase, -⟩ := reaches_released hs hp hu
    obtain rfl := reaches_unique s ht hr
    exact ⟨hphase, linesOff_of_inactive (by rw [hphase]; rfl)⟩
  case next =>
    rintro rfl
    obtain ⟨u, hr, hnext⟩ := reaches_nextDigit hs hp hu
    obtain rfl := reaches_unique s ht hr
    exact hnext

/-- Settles O39: the lines follow DIG and PHASE, and after the last lit cycle come SEG_OFF, DIG_OFF
and a phase without segments. -/
theorem digitsDoNotBleed : Obligations.DigitsDoNotBleed := by
  refine ⟨fun s i k => digitLinesFollowPhaseAndDigit.2 s i k, ?lit, ?gap⟩
  case lit =>
    intro s j hj
    have hp : s.phase = .segOn := by
      by_contra hne
      rw [segOn_eq_false_of_ne hne] at hj
      exact Bool.false_ne_true hj
    exact ⟨hp, s.dig, digOn_iff.2 ⟨.inr (.inl hp), rfl⟩, fun k hk => (digOn_iff.1 hk).2.symm⟩
  case gap =>
    intro s hs hp hc hu
    obtain ⟨t1, h1, hp1, hd1⟩ := step_segOn_done_uncut hs (presented_of_take s hu uncut_idle) hp hc
    have r1 : Reaches 1 s t1 := reaches_one h1
    obtain ⟨t2, h2, hp2, hd2⟩ := step_segOff_uncut (reaches_resetSeen hs r1)
      (presented_of_reaches r1 (take_mono (by decide) hu) uncut_idle) hp1
    have r2 : Reaches 2 s t2 := reaches_snoc r1 h2
    have huncut : t2.presented.Uncut := presented_of_reaches r2 hu uncut_idle
    obtain ⟨t3, h3, hp3⟩ : ∃ t, step t2 = .next t ∧ (t.phase = .digOn ∨ t.phase = .idle) := by
      by_cases hd : t2.dig = 3
      · obtain ⟨t, ht, -, hphase⟩ := step_digOff_last_uncut (reaches_resetSeen hs r2) huncut hp2 hd
        exact ⟨t, ht, hphase⟩
      · obtain ⟨t, ht, hphase, -⟩ :=
          step_digOff_next_uncut (reaches_resetSeen hs r2) huncut hp2 (val_lt_three_of_ne hd)
        exact ⟨t, ht, .inl hphase⟩
    refine ⟨t1, t2, t3, r1, r2, reaches_snoc r2 h3, segOn_eq_false_of_ne (by simp [hp1]),
      fun i => ?_, linesOff_of_inactive (by rw [hp2]; rfl), segOn_eq_false_of_ne fun h => ?_⟩
    · simp [State.digOn, hp1, hd1, Phase.active, eq_comm]
    · rw [h] at hp3
      rcases hp3 with hp3 | hp3 <;> exact Phase.noConfusion hp3

end Sys2Proof.Machine
end

section

namespace Sys2Proof.Machine

/-! The place in a scan pass as a number of cycles (43_refresh_engine.md R146): `passLeft` counts
down to the end of the pass, and says which digit it is and whether a digit begins. -/

/-- The engine is in a scan pass, its dwell counter within the dwell while it counts. -/
structure State.InPass (s : State) : Prop where
  live : s.phase ≠ .idle
  reachable : ∀ k, s.phase ≠ .unreachable k
  dwell : s.phase = .segOn → s.dwellCnt ≤ s.cfg.reload.toNat

section
variable {s t : State} {n : Nat}

theorem inPass_of_digOn (h : s.phase = .digOn) : s.InPass :=
  ⟨by simp [h], by simp [h], by simp [h]⟩

theorem inPass_of_inv (hinv : s.Inv) (hrun : s.run = true) : s.InPass := by
  obtain ⟨hreach, -, hon, hidle, -⟩ := hinv
  refine ⟨fun hp => ?_, hreach, hon⟩
  rw [hidle hp] at hrun
  exact Bool.false_ne_true hrun

theorem inPass_congr (hcfg : t.cfg = s.cfg) (hkept : PlaceKept s t) (h : s.InPass) : t.InPass := by
  obtain ⟨hphase, -, hcnt, -⟩ := hkept
  refine ⟨?_, ?_, ?_⟩ <;> rw [hphase]
  · exact h.live
  · exact h.reachable
  · rw [hcnt, hcfg]
    exact h.dwell

/-- `passLeft` is P for each digit to come and what is left of this one, all P of it in DIG_ON. -/
theorem passLeft_split (h : s.InPass) :
    ∃ r, s.passLeft = (3 - s.dig.val) * s.cfg.digitCycles + r ∧ 1 ≤ r ∧ r ≤ s.cfg.digitCycles ∧
      (s.phase = .digOn ↔ r = s.cfg.digitCycles) ∧ (s.phase = .digOff ↔ r = 1) := by
  obtain ⟨hidle, hreach, hon⟩ := h
  have hcycles : s.cfg.digitCycles = s.cfg.reload.toNat + 4 := rfl
  cases hp : s.phase with
  | idle => exact absurd hp hidle
  | unreachable k => exact absurd hp (hreach k)
  | digOn =>
    exact ⟨s.cfg.digitCycles, by simp [State.passLeft, hp], by omega, Nat.le_refl _,
      iff_of_true rfl rfl, iff_of_false Phase.noConfusion (by omega)⟩
  | segOn =>
    have hle := hon hp
    exact ⟨s.dwellCnt + 3, by simp [State.passLeft, hp], by omega, by omega,
      iff_of_false Phase.noConfusion (by omega), iff_of_false Phase.noConfusion (by omega)⟩
  | segOff =>
    exact ⟨2, by simp [State.passLeft, hp], by omega, by omega,
      iff_of_false Phase.noConfusion (by omega), iff_of_false Phase.noConfusion (by omega)⟩
  | digOff =>
    exact ⟨1, by simp [State.passLeft, hp], by omega, by omega,
      iff_of_false Phase.noConfusion (by omega), iff_of_true rfl rfl⟩

/-- The digits gone, this one and those to come make four. -/
theorem digitCycles_sum (s : State) :
    s.dig.val * s.cfg.digitCycles + s.cfg.digitCycles + (3 - s.dig.val) * s.cfg.digitCycles =
      4 * s.cfg.digitCycles := by
  have hd := s.dig.isLt
  rw [← Nat.succ_mul, ← Nat.add_mul]
  congr 1
  omega

/-- The cycles of the pass gone by say the digit and whether it begins. -/
theorem place_of_passLeft (h : s.InPass) :
    s.dig.val = (4 * s.cfg.digitCycles - s.passLeft) / s.cfg.digitCycles ∧
    (s.phase = .digOn ↔ (4 * s.cfg.digitCycles - s.passLeft) % s.cfg.digitCycles = 0) := by
  obtain ⟨r, hleft, hpos, hle, hon, -⟩ := passLeft_split h
  have hsum := digitCycles_sum s
  have hgone : 4 * s.cfg.digitCycles - s.passLeft =
      (s.cfg.digitCycles - r) + s.cfg.digitCycles * s.dig.val := by
    rw [Nat.mul_comm s.cfg.digitCycles]
    omega
  have hlt : s.cfg.digitCycles - r < s.cfg.digitCycles := by omega
  rw [hgone, Nat.add_mul_div_left _ _ (by omega), Nat.add_mul_mod_self_left, Nat.div_eq_of_lt hlt,
    Nat.mod_eq_of_lt hlt, hon]
  omega

/-- One cycle is left in DIG_OFF of digit 3 alone. -/
theorem passLeft_eq_one_iff (h : s.InPass) : s.passLeft = 1 ↔ s.phase = .digOff ∧ s.dig = 3 := by
  obtain ⟨r, hleft, hpos, hle, -, hoff⟩ := passLeft_split h
  rw [hoff, hleft]
  constructor
  · intro hone
    have hdigits : (3 - s.dig.val) * s.cfg.digitCycles = 0 := by omega
    have hlast : 3 - s.dig.val = 0 := (Nat.mul_eq_zero.1 hdigits).resolve_right (by omega)
    have hthree : s.dig = 3 := Fin.ext (show s.dig.val = 3 by omega)
    exact ⟨by omega, hthree⟩
  · rintro ⟨rfl, hd⟩
    simp [hd]

theorem EngineMove.dwellCnt_le_of_segOn (h : EngineMove s t)
    (hs : s.phase = .segOn → s.dwellCnt ≤ s.cfg.reload.toNat) :
    t.phase = .segOn → t.dwellCnt ≤ t.cfg.reload.toNat := by
  cases h with
  | load => exact fun _ => Nat.le_refl _
  | hold hp => exact fun _ => Nat.le_trans (Nat.sub_le ..) (hs hp)
  | recover => exact fun _ => Nat.zero_le _
  | idle => exact hs
  | last =>
    cases hrun : s.run <;> simp
  | dark | release | next => exact Phase.noConfusion

/-- Within a pass each edge takes one cycle off what is left of it, whatever RUN is, which it does
not read. -/
theorem engineEdge_inPass (h : s.InPass) (hleft : s.passLeft ≠ 1) :
    (engineEdge s).InPass ∧ (engineEdge s).passLeft + 1 = s.passLeft := by
  have hlast : ¬ (s.phase = .digOff ∧ s.dig = 3) := mt (passLeft_eq_one_iff h).2 hleft
  obtain ⟨hidle, hreach, hon⟩ := h
  refine ⟨⟨fun hp => ?_, (engineEdge_move s).phase_ne_unreachable,
    (engineEdge_move s).dwellCnt_le_of_segOn hon⟩, ?_⟩
  · rcases (engineEdge_move s).phase_idle_iff.1 hp with hp | ⟨k, hp⟩ | ⟨hp, hd, -⟩
    · exact hidle hp
    · exact hreach k hp
    · exact hlast ⟨hp, hd⟩
  · have hstopped := (engineEdge_move { s with run := false }).passLeft rfl
    rw [engineEdge_withRun s false hlast hreach] at hstopped
    have hcount : (engineEdge s).passLeft = s.passLeft - 1 := hstopped
    have hpos : s.passLeft ≠ 0 := mt passLeft_eq_zero_iff.1 hidle
    omega

theorem step_inPass (hs : s.resetSeen = true) (hu : s.presented.Uncut) (hpass : s.InPass)
    (hleft : s.passLeft ≠ 1) :
    ∃ t, step s = .next t ∧ t.InPass ∧ t.passLeft + 1 = s.passLeft := by
  obtain ⟨hedge, hcount⟩ := engineEdge_inPass hpass hleft
  obtain ⟨t, ht, hkept⟩ := step_uncut hs hu hedge.live
  have hcfg : t.cfg = (engineEdge s).cfg := (step_modelFields s ht).1.trans (engineEdge_cfg s).symm
  exact ⟨t, ht, inPass_congr hcfg hkept hedge, by rwa [passLeft_congr hcfg hkept]⟩

theorem reaches_inPass (hs : s.resetSeen = true) (hpass : s.InPass) (hn : n < s.passLeft)
    (hu : ∀ i ∈ s.host.take n, i.Uncut) :
    ∃ t, Reaches n s t ∧ t.InPass ∧ t.passLeft + n = s.passLeft ∧ t.scanCount = s.scanCount := by
  induction n with
  | zero => exact ⟨s, rfl, hpass, rfl, rfl⟩
  | succ n ih =>
    obtain ⟨t, ht, hpass', hleft, hscan⟩ :=
      ih (Nat.lt_of_succ_lt hn) (take_mono (Nat.le_succ n) hu)
    have huncut : t.presented.Uncut := presented_of_reaches ht hu uncut_idle
    have hmore : t.passLeft ≠ 1 := by omega
    obtain ⟨u, hu', hpass'', hcount⟩ := step_inPass (reaches_resetSeen hs ht) huncut hpass' hmore
    refine ⟨u, reaches_snoc ht hu', hpass'', by omega, ?_⟩
    rw [step_scanCount huncut.1 hu', if_neg (mt (passLeft_eq_one_iff hpass').2 hmore), hscan]

/-! RUN along a run (10_state.md R29). -/

theorem exec_phase_ne_unreachable {i : Instr} (h : exec i s = .next t)
    (hs : ∀ k, s.phase ≠ .unreachable k) : ∀ k, t.phase ≠ .unreachable k := by
  cases i with
  | start =>
    rw [exec_start] at h
    cases h
    by_cases hp : s.phase = .idle
    · simp [hp]
    · simpa [hp] using hs
  | teardown =>
    cases h
    exact fun _ => Phase.noConfusion
  | _ =>
    cases h
    exact hs

/-- No step leads to an unreachable phase. -/
theorem step_phase_ne_unreachable (h : step s = .next t) : ∀ k, t.phase ≠ .unreachable k := by
  have hedge := (engineEdge_move s.served).phase_ne_unreachable
  rcases step_cases s h with ⟨-, rfl⟩ | ⟨-, -, rfl⟩ | ⟨-, -, -, -, hx⟩
  · exact fun _ => Phase.noConfusion
  · exact fun k => (sequencerEdge_phase _).symm ▸ hedge k
  · exact exec_phase_ne_unreachable hx hedge

theorem noEngineCommand_of_not_calls (hu : s.presented.Uncut)
    (hno : ¬ s.presented.Calls .start ∧ ¬ s.presented.Calls .stop) : s.NoEngineCommand :=
  ⟨fun h => hno.1 (calls_of_acceptsCommand h), fun h => hno.2 (calls_of_acceptsCommand h),
    fun h => hu.2 (calls_of_acceptsCommand h)⟩

theorem reaches_run_kept (hreach : ∀ k, s.phase ≠ .unreachable k)
    (hu : ∀ i ∈ s.host.take n, i.Uncut)
    (hno : ∀ i ∈ s.host.take n, ¬ i.Calls .start ∧ ¬ i.Calls .stop) (h : Reaches n s t) :
    t.run = s.run := by
  induction n generalizing s with
  | zero => rw [(reaches_zero s).1 h]
  | succ n ih =>
    obtain ⟨v, hv, hrun⟩ := (reaches_succ s).1 h
    have huncut : s.presented.Uncut := presented_of_take s hu uncut_idle
    have hnone := noEngineCommand_of_not_calls huncut
      (presented_of_take s hno ⟨not_calls_idle .start, not_calls_idle .stop⟩)
    obtain ⟨-, -, -, -, hkept⟩ := runFollowsItsCommands s v hv
    have hrest := ih (step_phase_ne_unreachable hv) (step_host hv ▸ tail_of_take s hu)
      (step_host hv ▸ tail_of_take s hno) hrun
    exact hrest.trans (hkept huncut.1 hnone hreach)

end

/-- Settles O38: the cycles gone by in the pass say the place (`place_of_passLeft`), up to the
pass's last edge, where SCAN_COUNT counts it and RUN is read. -/
theorem scanPassVisitsEachDigitOnce : Obligations.ScanPassVisitsEachDigitOnce := by
  intro s hs hp hd hu
  have hpass := inPass_of_digOn hp
  have hleft : s.passLeft = 4 * s.cfg.digitCycles := by
    simp only [State.passLeft, hp, hd]
    exact (Nat.succ_mul 3 _).symm
  refine ⟨fun k hk => ?place, ?last⟩
  case place =>
    obtain ⟨t, ht, hpass', hcount, -⟩ :=
      reaches_inPass hs hpass (hleft ▸ hk) (take_mono (Nat.le_of_lt hk) hu)
    obtain ⟨hdig, hon⟩ := place_of_passLeft hpass'
    have hgone : 4 * t.cfg.digitCycles - t.passLeft = k := by
      rw [reaches_cfg ht]
      omega
    rw [hgone, reaches_cfg ht] at hdig hon
    exact ⟨t, ht, hdig, hon, hpass'.live⟩
  case last =>
    obtain ⟨n, hn⟩ : ∃ n, 4 * (s.cfg.dwellCycles + 3) = n + 1 := ⟨_, rfl⟩
    have hcycles : 4 * s.cfg.digitCycles = n + 1 := hn
    rw [hn] at hu ⊢
    obtain ⟨t, ht, hpass', hcount, hscan⟩ :=
      reaches_inPass (n := n) hs hpass (by omega) (take_mono (Nat.le_succ n) hu)
    obtain ⟨hoff, hthree⟩ := (passLeft_eq_one_iff hpass').1 (by omega)
    have hseen := reaches_resetSeen hs ht
    have huncut : t.presented.Uncut := presented_of_reaches ht hu uncut_idle
    obtain ⟨u, hu', hzero, hphase⟩ := step_digOff_last_uncut hseen huncut hoff hthree
    refine ⟨u, reaches_snoc ht hu', hzero, ?_, hphase, fun hno => ?_⟩
    · rw [step_scanCount huncut.1 hu', if_pos ⟨hoff, hthree⟩, hscan]
    · have hrun : t.run = s.run := reaches_run_kept hpass.reachable (take_mono (Nat.le_succ n) hu)
        (take_mono (Nat.le_succ n) hno) ht
      have hnone := noEngineCommand_of_not_calls huncut
        (presented_of_reaches ht hno ⟨not_calls_idle .start, not_calls_idle .stop⟩)
      obtain ⟨v, hv, hkept, -⟩ := step_engineKept t hseen huncut.1 hnone
      rw [engineEdge_digOff_last t hoff hthree] at hkept
      obtain ⟨hphase', -, -, -, hrun', -⟩ := hkept
      obtain rfl := reaches_unique t (reaches_one hu') (reaches_one hv)
      rw [← hrun]
      exact ⟨hrun', hphase'⟩

end Sys2Proof.Machine
end

section

namespace Sys2Proof.Machine

/-! The next latch load of a digit while the engine runs on (20_memory.md R61). -/

/-- The cycles until the edge that loads the latch for digit `d`, in this pass or in the next. -/
def State.toLoad (s : State) (d : DigitPosition) : Nat :=
  let gone := 4 * s.cfg.digitCycles - s.passLeft
  if gone ≤ d.val * s.cfg.digitCycles then d.val * s.cfg.digitCycles - gone
  else 4 * s.cfg.digitCycles + d.val * s.cfg.digitCycles - gone

section
variable {s t u v : State} {d : DigitPosition} {m n : Nat}

theorem loadsLatch_iff (h : s.InPass) :
    s.LoadsLatch d ↔ 4 * s.cfg.digitCycles - s.passLeft = d.val * s.cfg.digitCycles := by
  obtain ⟨hdig, hon⟩ := place_of_passLeft h
  have hpos : 0 < s.cfg.digitCycles := Nat.succ_pos _
  rw [State.LoadsLatch, hon, Fin.ext_iff, hdig]
  generalize 4 * s.cfg.digitCycles - s.passLeft = gone
  constructor
  · rintro ⟨hmod, hdiv⟩
    rw [← hdiv, Nat.div_mul_cancel (Nat.dvd_of_mod_eq_zero hmod)]
  · rintro rfl
    exact ⟨Nat.mul_mod_left .., Nat.mul_div_cancel _ hpos⟩

theorem passLeft_bounds (h : s.InPass) : 1 ≤ s.passLeft ∧ s.passLeft ≤ 4 * s.cfg.digitCycles := by
  obtain ⟨r, hleft, hpos, hle, -⟩ := passLeft_split h
  have hsum := digitCycles_sum s
  omega

theorem position_mul_le (d : DigitPosition) (p : Nat) : d.val * p ≤ 3 * p :=
  Nat.mul_le_mul_right p (Nat.le_of_lt_succ d.isLt)

theorem toLoad_eq_zero_iff (h : s.InPass) : s.toLoad d = 0 ↔ s.LoadsLatch d := by
  obtain ⟨hpos, hle⟩ := passLeft_bounds h
  rw [loadsLatch_iff h, State.toLoad]
  split <;> omega

theorem toLoad_lt (h : s.InPass) (d : DigitPosition) : s.toLoad d < 4 * s.cfg.digitCycles := by
  obtain ⟨hpos, hle⟩ := passLeft_bounds h
  have hd := position_mul_le d s.cfg.digitCycles
  rw [State.toLoad]
  split <;> omega

theorem toLoad_congr (hcfg : t.cfg = s.cfg) (hkept : PlaceKept s t) : t.toLoad d = s.toLoad d := by
  rw [State.toLoad, State.toLoad, passLeft_congr hcfg hkept, hcfg]

/-- While RUN is 1 the end of a pass begins the next one. -/
theorem engineEdge_last_inPass (hoff : s.phase = .digOff) (hd : s.dig = 3) (hrun : s.run = true) :
    (engineEdge s).InPass ∧ (engineEdge s).passLeft = 4 * s.cfg.digitCycles := by
  have hedge := engineEdge_digOff_last s hoff hd
  rw [hrun, if_pos rfl] at hedge
  have hphase : (engineEdge s).phase = .digOn := by rw [hedge]
  refine ⟨inPass_of_digOn hphase, ?_⟩
  simp only [State.passLeft, hphase, engineEdge_cfg]
  rw [hedge]
  exact (Nat.succ_mul 3 _).symm

theorem engineEdge_running (h : s.InPass) (hrun : s.run = true) :
    (engineEdge s).InPass ∧ (s.toLoad d ≠ 0 → (engineEdge s).toLoad d + 1 = s.toLoad d) := by
  have hd := position_mul_le d s.cfg.digitCycles
  have hcycles : s.cfg.digitCycles = s.cfg.reload.toNat + 4 := rfl
  obtain ⟨hpos, hle⟩ := passLeft_bounds h
  by_cases hone : s.passLeft = 1
  · obtain ⟨hoff, hthree⟩ := (passLeft_eq_one_iff h).1 hone
    obtain ⟨hedge, hleft⟩ := engineEdge_last_inPass hoff hthree hrun
    refine ⟨hedge, fun _ => ?_⟩
    simp only [State.toLoad, hleft, hone, engineEdge_cfg]
    split <;> split <;> omega
  · obtain ⟨hedge, hleft⟩ := engineEdge_inPass h hone
    refine ⟨hedge, fun hne => ?_⟩
    simp only [State.toLoad, engineEdge_cfg] at hne ⊢
    split at hne <;> split <;> omega

theorem runsOn_idle : Inputs.idle.RunsOn := ⟨uncut_idle, not_calls_idle .stop⟩

theorem step_runsOn (hs : s.resetSeen = true) (hi : s.presented.RunsOn) (hpass : s.InPass)
    (hrun : s.run = true) :
    ∃ t, step s = .next t ∧ t.InPass ∧ t.run = true ∧
      ∀ d, s.toLoad d ≠ 0 → t.toLoad d + 1 = s.toLoad d := by
  obtain ⟨huncut, hstop⟩ := hi
  have hedge := (engineEdge_running (d := 0) hpass hrun).1
  obtain ⟨t, ht, hkept⟩ := step_uncut hs huncut hedge.live
  have hcfg : t.cfg = (engineEdge s).cfg := (step_modelFields s ht).1.trans (engineEdge_cfg s).symm
  obtain ⟨-, hstart, -, -, hnone⟩ := runFollowsItsCommands s t ht
  refine ⟨t, ht, inPass_congr hcfg hkept hedge, ?run, fun d hd => ?load⟩
  case run =>
    by_cases ha : s.AcceptsCommand .start
    · exact hstart huncut.1 ha
    · refine (hnone huncut.1 ⟨ha, fun h => ?_, fun h => ?_⟩ hpass.reachable).trans hrun
      · exact hstop (calls_of_acceptsCommand h)
      · exact huncut.2 (calls_of_acceptsCommand h)
  case load =>
    rw [toLoad_congr hcfg hkept]
    exact (engineEdge_running hpass hrun).2 hd

theorem reaches_runsOn (hs : s.resetSeen = true) (hpass : s.InPass) (hrun : s.run = true)
    (hi : ∀ i ∈ s.host.take n, i.RunsOn) :
    ∃ t, Reaches n s t ∧ t.InPass ∧ t.run = true := by
  induction n with
  | zero => exact ⟨s, rfl, hpass, hrun⟩
  | succ n ih =>
    obtain ⟨t, ht, hpass', hrun'⟩ := ih (take_mono (Nat.le_succ n) hi)
    obtain ⟨u, hu, hpass'', hrun'', -⟩ := step_runsOn (reaches_resetSeen hs ht)
      (presented_of_reaches ht hi runsOn_idle) hpass' hrun'
    exact ⟨u, reaches_snoc ht hu, hpass'', hrun''⟩

/-- The load comes after as many cycles as `toLoad` says, and not before. -/
theorem reaches_toLoad (hs : s.resetSeen = true) (hpass : s.InPass) (hrun : s.run = true)
    (hn : s.toLoad d = n) (hi : ∀ i ∈ s.host.take n, i.RunsOn) :
    (∃ t, Reaches n s t ∧ t.LoadsLatch d) ∧ ∀ k u, k < n → Reaches k s u → ¬ u.LoadsLatch d := by
  induction n generalizing s with
  | zero =>
    exact ⟨⟨s, rfl, (toLoad_eq_zero_iff hpass).1 hn⟩, fun k u hk => absurd hk (Nat.not_lt_zero k)⟩
  | succ n ih =>
    have hne : s.toLoad d ≠ 0 := hn ▸ Nat.succ_ne_zero n
    obtain ⟨v, hv, hpass', hrun', hload⟩ :=
      step_runsOn hs (presented_of_take s hi runsOn_idle) hpass hrun
    obtain ⟨⟨t, ht, hloads⟩, hbefore⟩ := ih (step_resetSeen hs hv) hpass' hrun'
      (Nat.succ.inj ((hload d hne).trans hn)) (step_host hv ▸ tail_of_take s hi)
    refine ⟨⟨t, (reaches_succ s).2 ⟨v, hv, ht⟩, hloads⟩, fun k u hk hu => ?_⟩
    cases k with
    | zero =>
      obtain rfl := (reaches_zero s).1 hu
      exact mt (toLoad_eq_zero_iff hpass).2 hne
    | succ k =>
      obtain ⟨w, hw, hwu⟩ := (reaches_succ s).1 hu
      obtain rfl := reaches_unique s (reaches_one hv) (reaches_one hw)
      exact hbefore k u (Nat.lt_of_succ_lt_succ hk) hwu

/-- What a run does after its first `m` cycles. -/
theorem reaches_rest (hv : Reaches m s v) (hu : Reaches (m + n) s u) : Reaches n v u := by
  induction m generalizing s with
  | zero =>
    obtain rfl := (reaches_zero s).1 hv
    rwa [Nat.zero_add] at hu
  | succ m ih =>
    obtain ⟨w, hw, hwv⟩ := (reaches_succ s).1 hv
    rw [Nat.succ_add] at hu
    obtain ⟨x, hx, hxu⟩ := (reaches_succ s).1 hu
    obtain rfl := reaches_unique s (reaches_one hw) (reaches_one hx)
    exact ih hwv hxu

theorem take_of_reaches {P : Inputs → Prop} (hv : Reaches m s v)
    (h : ∀ i ∈ (s.host.take (m + n)).drop m, P i) : ∀ i ∈ v.host.take n, P i := by
  rwa [List.drop_take, Nat.add_sub_cancel_left, ← reaches_host hv] at h

/-! What the host leaves of a cell that it does not write (42_buffer_commands.md R121 to R125). -/

/-- No command that overwrites is presented in these inputs. -/
abbrev Spares (overwrites : Instr → Bool) (l : List Inputs) : Prop :=
  ∀ i ∈ l, i.cmdValid = true → overwrites (decodeCmd i.cmd) = false

theorem step_row_kept (h : step s = .next t) (hr : s.presented.rst = false) (hb : s.busy = false)
    (hno : s.presented.cmdValid = true → writesRow d (decodeCmd s.presented.cmd) = false) :
    t.segRow d = s.segRow d ∧ t.busy = false := by
  rcases step_cases s h with ⟨hrst, -⟩ | ⟨-, -, rfl⟩ | ⟨-, -, ha, -, hx⟩
  · simp [hr] at hrst
  · rw [innerEdge_ready s.served hb]
    exact ⟨engineEdge_segRow s.served d, (engineEdge_busy s.served).trans hb⟩
  · have hw := hno ((accepts_iff s).1 ha).1
    exact ⟨(exec_segRow_kept hx hw).trans (engineEdge_segRow s.served d),
      (exec_busy_kept hx hw).trans ((engineEdge_busy s.served).trans hb)⟩

theorem step_point_kept (h : step s = .next t) (hr : s.presented.rst = false)
    (hno : s.presented.cmdValid = true → writesPoint d (decodeCmd s.presented.cmd) = false) :
    t.point d = s.point d := by
  rcases step_cases s h with ⟨hrst, -⟩ | ⟨-, -, rfl⟩ | ⟨-, -, ha, -, hx⟩
  · simp [hr] at hrst
  · exact (sequencerEdge_point _ d).trans (engineEdge_point s.served d)
  · exact (exec_point_kept hx (hno ((accepts_iff s).1 ha).1)).trans (engineEdge_point s.served d)

theorem reaches_row_kept (h : Reaches n s t) (hb : s.busy = false)
    (hr : ∀ i ∈ s.host.take n, i.rst = false)
    (hno : Spares (writesRow d) (s.host.take n)) :
    t.segRow d = s.segRow d := by
  induction n generalizing s with
  | zero => rw [(reaches_zero s).1 h]
  | succ n ih =>
    obtain ⟨v, hv, hrun⟩ := (reaches_succ s).1 h
    obtain ⟨hrow, hbusy⟩ := step_row_kept (d := d) hv (presented_of_take s hr rfl) hb
      (presented_of_take s hno Bool.noConfusion)
    exact (ih hrun hbusy (step_host hv ▸ tail_of_take s hr)
      (step_host hv ▸ tail_of_take s hno)).trans hrow

theorem reaches_point_kept (h : Reaches n s t) (hr : ∀ i ∈ s.host.take n, i.rst = false)
    (hno : Spares (writesPoint d) (s.host.take n)) :
    t.point d = s.point d := by
  induction n generalizing s with
  | zero => rw [(reaches_zero s).1 h]
  | succ n ih =>
    obtain ⟨v, hv, hrun⟩ := (reaches_succ s).1 h
    have hpoint : v.point d = s.point d := step_point_kept hv (presented_of_take s hr rfl)
      (presented_of_take s hno Bool.noConfusion)
    exact (ih hrun (step_host hv ▸ tail_of_take s hr) (step_host hv ▸ tail_of_take s hno)).trans hpoint

theorem engineEdge_busy_of_accepts (h : s.accepts = true) : (engineEdge s.served).busy = false :=
  (engineEdge_busy s.served).trans (busy_eq_false_of_accepts (s := s) h)

/-- A row written by the cycle `m` is the same `n` cycles later, where nothing overwrites it. -/
theorem row_at_load (hv : Reaches m s v) (hb : v.busy = false) (hmn : m ≤ n) (hu : Reaches n s u)
    (hr : ∀ i ∈ s.host.take n, i.rst = false)
    (hno : Spares (writesRow d) ((s.host.take n).drop m)) :
    u.segRow d = v.segRow d := by
  obtain ⟨k, rfl⟩ := Nat.exists_eq_add_of_le hmn
  exact reaches_row_kept (reaches_rest hv hu) hb
    (take_of_reaches hv fun i h => hr i (List.mem_of_mem_drop h)) (take_of_reaches hv hno)

theorem point_at_load (hv : Reaches m s v) (hmn : m ≤ n) (hu : Reaches n s u)
    (hr : ∀ i ∈ s.host.take n, i.rst = false)
    (hno : Spares (writesPoint d) ((s.host.take n).drop m)) :
    u.point d = v.point d := by
  obtain ⟨k, rfl⟩ := Nat.exists_eq_add_of_le hmn
  exact reaches_point_kept (reaches_rest hv hu)
    (take_of_reaches hv fun i h => hr i (List.mem_of_mem_drop h)) (take_of_reaches hv hno)

/-- The row of a SETSTR's digit in any cycle after the edge that writes it, while nothing overwrites
it from the fourth cycle on, when the sequencer is through. -/
theorem setstr_row_at_load {c : DigitPosition → CharCode} (hs : s.resetSeen = true)
    (ha : s.AcceptsCommand (.setstr (c 0) (c 1) (c 2) (c 3))) (hd : d.val + 1 ≤ n) (hu : Reaches n s u)
    (hrst : ∀ i ∈ s.host.take 4, i.rst = false) (hr : ∀ i ∈ s.host.take n, i.rst = false)
    (hno : Spares (writesRow d) ((s.host.take n).drop 4)) :
    u.segRow d = enc s.cfg.glyph (c d) := by
  by_cases hn : n ≤ 4
  · obtain ⟨v, hv, hprogress⟩ := reaches_setstr hs ha hrst hn
    obtain rfl := reaches_unique s hv hu
    exact (hprogress.row d).trans (if_pos hd)
  · obtain ⟨v, hv, hprogress⟩ := reaches_setstr hs ha hrst (Nat.le_refl 4)
    rw [row_at_load hv hprogress.busy (Nat.le_of_not_le hn) hu hr hno, hprogress.row d, if_pos d.isLt]

/-! What the lines show after a load (R141, R142). -/

theorem segOn_row_of_load (hp : t.phase = .segOn) (hlatch : t.latch = u.lineRow d) {j : SegmentLine}
    (hj : j.val < 7) : t.segOn j = (u.segRow d).getLsbD j.val := by
  rw [segOn_of_lit hp, hlatch, ← setWidth_lineRow, BitVec.getLsbD_setWidth]
  simp [hj]

theorem segOn_point_of_load (hp : t.phase = .segOn) (hlatch : t.latch = u.lineRow d) :
    t.segOn 7 = u.point d := by
  rw [segOn_of_lit hp, hlatch]
  exact getLsbD_lineRow_seven u d

theorem segOn_blank_of_load (hp : t.phase = .segOn) (hlatch : t.latch = u.lineRow d)
    (hrow : u.segRow d = 0#7) (hpoint : u.point d = false) (j : SegmentLine) : t.segOn j = false := by
  have hblank : u.lineRow d = 0#8 := by
    rw [State.lineRow, hrow, hpoint]
    rfl
  rw [segOn_of_lit hp, hlatch, hblank, BitVec.getLsbD_zero]

/-- While the engine runs on, the next latch load of a digit after the edge `e` comes within a pass,
and the cycle after it shows the row and the point that the digit has in the cycle of the load. -/
theorem seenAtNextLoad {e ready : Nat} {overwrites : Instr → Bool} {shown : State → Prop}
    (hs : s.resetSeen = true) (hpass : s.InPass) (hrun : s.run = true)
    (hi : ∀ i ∈ s.host.take (e + 4 * s.cfg.digitCycles + 1), i.RunsOn)
    (hshown : ∀ m u, e + 1 ≤ m → m ≤ e + 4 * s.cfg.digitCycles → Reaches m s u →
      Spares overwrites ((s.host.take m).drop ready) →
      ∀ t, t.phase = .segOn → t.latch = u.lineRow d → shown t) :
    SeenAtNextLoad s d e ready overwrites shown := by
  obtain ⟨v, hv, hpass', hrun'⟩ :=
    reaches_runsOn (n := e + 1) hs hpass hrun (take_mono (by omega) hi)
  have hbound := toLoad_lt hpass' d
  rw [reaches_cfg hv] at hbound
  have hrest : ∀ i ∈ v.host.take (v.toLoad d), i.RunsOn := take_of_reaches hv fun i h =>
    take_mono (by omega) hi i (List.mem_of_mem_drop h)
  obtain ⟨⟨u, hu, hloads⟩, hbefore⟩ := reaches_toLoad (reaches_resetSeen hs hv) hpass' hrun' rfl hrest
  have hload : Reaches (e + 1 + v.toLoad d) s u := reaches_add s hv hu
  refine ⟨e + 1 + v.toLoad d, ⟨Nat.le_add_right .., ⟨u, hload, hloads⟩, fun k w hk hkm hw => ?_⟩,
    by omega, fun hno => ?_⟩
  · obtain ⟨j, rfl⟩ := Nat.exists_eq_add_of_le hk
    exact hbefore j w (by omega) (reaches_rest hv hw)
  · have huncut : u.presented.RunsOn := presented_of_reaches hload (take_mono (by omega) hi) runsOn_idle
    obtain ⟨hp, hd⟩ := hloads
    obtain ⟨t, ht, hphase, hdig, -, hlatch⟩ :=
      step_digOn_uncut (reaches_resetSeen hs hload) huncut.1 hp
    rw [hd] at hdig hlatch
    exact ⟨t, reaches_snoc hload ht, hphase, digOn_iff.2 ⟨.inr (.inl hphase), hdig⟩,
      hshown _ u (Nat.le_add_right ..) (by omega) hload hno t hphase hlatch⟩

end

/-- Settles O40: the cell written at its edge is the one loaded (`reaches_row_kept`,
`reaches_point_kept`), and the load is the one of `seenAtNextLoad`. -/
theorem writeIsSeenWithinOnePass : Obligations.WriteIsSeenWithinOnePass := by
  intro s d hs hinv hrun hi
  have hpass := inPass_of_inv hinv hrun
  have hfrom : ∀ i ∈ s.host.take (0 + 4 * s.cfg.digitCycles + 1), i.RunsOn := by rwa [Nat.zero_add]
  have hreset : ∀ {m}, m ≤ 0 + 4 * s.cfg.digitCycles → ∀ i ∈ s.host.take m, i.rst = false :=
    fun hm i h => (take_mono (Nat.le_succ_of_le hm) hfrom i h).1.1
  refine ⟨fun p ha => ?setdig, fun v ha => ?setpt, fun ha => ?clear, fun c ha hi' => ?setstr⟩
  case setdig =>
    have hwrite := reaches_one (step_acceptsCommand hs ha)
    have hbusy := engineEdge_busy_of_accepts ha.1
    refine seenAtNextLoad hs hpass hrun hfrom fun m u hm hle hu hno t hp hlatch j hj => ?_
    rw [segOn_row_of_load hp hlatch hj, row_at_load hwrite hbusy hm hu (hreset hle) hno,
      segRow_writeRow, if_pos rfl]
  case setpt =>
    have hwrite := reaches_one (step_acceptsCommand hs ha)
    refine seenAtNextLoad hs hpass hrun hfrom fun m u hm hle hu hno t hp hlatch => ?_
    rw [segOn_point_of_load hp hlatch, point_at_load hwrite hm hu (hreset hle) hno,
      point_writePoint, if_pos rfl]
  case clear =>
    have hwrite := reaches_one (step_acceptsCommand hs ha)
    have hbusy := engineEdge_busy_of_accepts ha.1
    refine seenAtNextLoad hs hpass hrun hfrom fun m u hm hle hu hno t hp hlatch => ?_
    have hrow := row_at_load (d := d) hwrite hbusy hm hu (hreset hle) fun i h hv =>
      (Bool.or_eq_false_iff.1 (hno i h hv)).1
    have hpoint := point_at_load (d := d) hwrite hm hu (hreset hle) fun i h hv =>
      (Bool.or_eq_false_iff.1 (hno i h hv)).2
    exact segOn_blank_of_load hp hlatch (hrow.trans (segRow_clearBuffer _ d))
      (hpoint.trans (point_clearBuffer _ d))
  case setstr =>
    have hcycles : s.cfg.digitCycles = s.cfg.reload.toNat + 4 := rfl
    have hreset' : ∀ {m}, m ≤ d.val + 4 * s.cfg.digitCycles → ∀ i ∈ s.host.take m, i.rst = false :=
      fun hm i h => (take_mono (Nat.le_succ_of_le hm) hi' i h).1.1
    refine seenAtNextLoad hs hpass hrun hi' fun m u hm hle hu hno t hp hlatch j hj => ?_
    rw [segOn_row_of_load hp hlatch hj,
      setstr_row_at_load hs ha hm hu (hreset' (by omega)) (hreset' hle) hno]

end Sys2Proof.Machine
end

section

namespace Sys2Proof.Machine

/-! The same-edge cases of the engine and a command (43_refresh_engine.md R161). -/

section
variable {s : State}

/-- START accepted where the engine stays running adds RUN to what the cycle does without it. -/
theorem step_start_running (hs : s.resetSeen = true) (ha : s.AcceptsCommand .start)
    (hlive : (engineEdge s).phase ≠ .idle) :
    ∃ u, step s.withoutCommand = .next u ∧ step s = .next { u with run := true } := by
  refine ⟨_, step_withoutCommand_of_accepts s ha.1, ?_⟩
  rw [step_acceptsCommand hs ha]
  refine exec_start_running _ ?_
  rwa [engineEdge_served]

/-- A TEARDOWN at rest at digit 0 finds every register as it would leave it. -/
theorem step_teardown_at_rest (hs : s.resetSeen = true) (hinv : s.Inv) (hp : s.phase = .idle)
    (hd : s.dig = 0) (ha : s.AcceptsCommand .teardown) :
    ∃ t, step s = .next t ∧ RegistersKept s t := by
  obtain ⟨-, hoff, -, hidle, -⟩ := hinv
  obtain ⟨hcnt, hlatch⟩ := hoff (by simp [hp])
  refine ⟨_, step_acceptsCommand hs ha, ?_⟩
  rw [engineEdge_idle s.served hp]
  exact ⟨⟨fun _ => rfl, fun _ => rfl⟩,
    ⟨hp.symm, hd.symm, hcnt.symm, hlatch.symm, (hidle hp).symm, rfl⟩, ⟨rfl, rfl, rfl⟩, rfl, rfl⟩

end

/-- Settles O42: row by row, the command acts on what the engine's edge leaves; the rows of STOP are
O41's and the first of TEARDOWN is O19's. -/
theorem sameEdgeCasesComposeAsListed : Obligations.SameEdgeCasesComposeAsListed := by
  intro s hs
  obtain ⟨-, -, hstopLast, hstopIdle, -⟩ := stopHaltsWithinOnePass
  obtain ⟨-, -, -, hstartLast⟩ := startRunsTheEngine
  obtain ⟨-, -, hteardown, -⟩ := teardownStopsAtOnce
  refine ⟨fun p hp ha => ?setdig, fun hp hd hrun ha => hstopLast s hs ha hp hd hrun,
    fun hp hd _ ha => hstartLast s hs ha hp hd, fun hp hd ha => ?teardownLast,
    fun hinv hp ha => hstopIdle s hs hinv ha hp,
    fun hinv hp hd ha => step_teardown_at_rest hs hinv hp hd ha, fun hinv hp hlast ha => ?start⟩
  case setdig =>
    refine ⟨_, step_acceptsCommand hs ha, ?_, ?_⟩
    · rw [writeRow_latch, engineEdge_digOn s.served hp]
      rfl
    · rw [segRow_writeRow, if_pos rfl]
  case teardownLast =>
    obtain ⟨t, ht, hidle, -, -, -, -, -, -, -, hscan⟩ := hteardown s hs ha
    exact ⟨t, ht, hidle, hscan.trans (if_pos ⟨hp, hd⟩)⟩
  case start =>
    obtain ⟨hreach, -⟩ := hinv
    refine step_start_running hs ha fun h => ?_
    rcases (engineEdge_move s).phase_idle_iff.1 h with h | ⟨k, h⟩ | h
    · exact hp h
    · exact hreach k h
    · exact hlast h

end Sys2Proof.Machine
end

section

namespace Sys2Proof.Machine

/-! The words and the refusals of the assembler's lines (30_encoding.md R79). -/

section
variable {b : AsmBasic} {i : Instr} {w : CmdWord}

/-- A line with the encoder's word for an instruction means that instruction (O1, O2). -/
theorem means_of_encode (hwf : i.wellFormed = true) (hi : encode i = .cmd w)
    (hb : b.cycles = .ok [some w]) : b.Means i := by
  have hdecode : decodeCmd w = i := by
    have h := decodeUndoesEncode i hwf
    rwa [hi] at h
  have hused := (encodeUndoesDecodeUpToIgnoredBits w).1
  rw [hdecode, hi] at hused
  exact ⟨w, hb, hdecode, (PortWord.cmd.inj hused).symm⟩

theorem setWidth_ofNat_pattern {pat : Nat} (h : pat ≤ 0x7F) :
    (BitVec.ofNat 7 pat).setWidth 32 = BitVec.ofNat 32 pat := by
  apply BitVec.eq_of_toNat_eq
  rw [BitVec.toNat_setWidth_of_le (by decide), BitVec.toNat_ofNat, BitVec.toNat_ofNat]
  omega

theorem means_setdig {pos pat : Nat} (hp : pos < 4) (hpat : pat ≤ 0x7F) :
    (AsmBasic.setdig pos pat).Means (.setdig ⟨pos, hp⟩ (BitVec.ofNat 7 pat)) := by
  refine means_of_encode rfl rfl ?_
  rw [setWidth_ofNat_pattern hpat]
  simp [AsmBasic.cycles, hp, hpat]

theorem means_setpt {pos v : Nat} (hp : pos < 4) (hv : v ≤ 1) :
    (AsmBasic.setpt pos v).Means (.setpt ⟨pos, hp⟩ (v == 1)) :=
  means_of_encode rfl rfl (by simp [AsmBasic.cycles, hp, hv])

theorem fourCodes_toNat (c0 c1 c2 c3 : CharCode) :
    fourCodes [c0.toNat, c1.toNat, c2.toNat, c3.toNat] = .ok (packChars c0 c1 c2 c3) := by
  have hrange : c0.toNat < 256 ∧ c1.toNat < 256 ∧ c2.toNat < 256 ∧ c3.toNat < 256 :=
    ⟨c0.isLt, c1.isLt, c2.isLt, c3.isLt⟩
  simp [fourCodes, hrange]

theorem means_setstr (c0 c1 c2 c3 : CharCode) :
    (AsmBasic.setstr [c0.toNat, c1.toNat, c2.toNat, c3.toNat]).Means (.setstr c0 c1 c2 c3) :=
  means_of_encode rfl rfl (by simp [AsmBasic.cycles, fourCodes_toNat])

theorem means_setstrData (c0 c1 c2 c3 : CharCode) :
    (AsmBasic.setstrData (c0 ++ c1 ++ c2 ++ c3).toNat).Means (.setstr c0 c1 c2 c3) := by
  refine means_of_encode rfl rfl ?_
  rw [AsmBasic.cycles, if_pos (c0 ++ c1 ++ c2 ++ c3).isLt, BitVec.ofNat_toNat, BitVec.setWidth_eq]
  rfl

theorem fourCodes_of_length_ne {codes : List Nat} (h : codes.length ≠ 4) :
    fourCodes codes = .error .notFourCharacters := by
  unfold fourCodes
  split
  · exact absurd rfl h
  · rfl

theorem fourCodes_of_code_ge {codes : List Nat} (hlen : codes.length = 4)
    (hbig : ∃ c ∈ codes, 256 ≤ c) : fourCodes codes = .error .codeOutOfRange := by
  obtain ⟨c0, c1, c2, c3, rfl⟩ := List.length_eq_four.1 hlen
  refine if_neg fun ⟨h0, h1, h2, h3⟩ => ?_
  simp at hbig
  omega

end

/-! The text of a line (R79). -/

section
variable {l w : List Char} {ops : List Token} {m : Mnemonic} {line : AsmLine}

theorem parseLine_of_spells_nil (h : Spells [] l) : parseLine l = .ok [] := by
  rw [parseLine, scan_spells h]

theorem parseLine_of_spells {name : String} (h : Spells (.word w :: ops) l) (hw : NamesMnemonic w name)
    (hm : mnemonicOf name.toList = some m) (hline : lineOf m ops = .ok line) :
    parseLine l = .ok [line] := by
  rw [parseLine, scan_spells h]
  simp only [hw, hm, hline]

theorem numberTokens_ne_str (as : List (List Char)) (codes : List Nat) :
    numberTokens as ≠ [.str codes] := by
  match as with
  | [] => simp [numberTokens]
  | [a] => simp [numberTokens]
  | a :: b :: as => simp [numberTokens]

theorem lineOf_numberTokens {as : List (List Char)} {ns : List Nat}
    (has : List.Forall₂ Numeral as ns) (hline : lineOfNumbers m ns = some line) :
    lineOf m (numberTokens as) = .ok line := by
  unfold lineOf
  split
  next h => exact absurd h (numberTokens_ne_str as _)
  next h => exact absurd h (numberTokens_ne_str as _)
  next => simp only [numbersOf_numberTokens has, hline]

theorem parseLine_of_numbers {as : List (List Char)} {ns : List Nat} {name : String}
    (h : Spells (.word w :: numberTokens as) l) (has : List.Forall₂ Numeral as ns)
    (hw : NamesMnemonic w name) (hm : mnemonicOf name.toList = some m)
    (hline : lineOfNumbers m ns = some line) : parseLine l = .ok [line] :=
  parseLine_of_spells h hw hm (lineOf_numberTokens has hline)

end

/-! Programs: lines one after another (log 19). -/

section
variable {zs : List Inputs}

theorem assembleBasics_cons_iff {b : AsmBasic} {bs : List AsmBasic} :
    assembleBasics (b :: bs) = .ok zs ↔
      ∃ ws rest, b.cycles = .ok ws ∧ assembleBasics bs = .ok rest ∧
        zs = ws.map Inputs.ofCycle ++ rest := by
  rw [assembleBasics]
  cases b.cycles <;> cases assembleBasics bs <;> simp [eq_comm]

theorem assembleBasics_append_iff {bs cs : List AsmBasic} :
    assembleBasics (bs ++ cs) = .ok zs ↔
      ∃ xs ys, assembleBasics bs = .ok xs ∧ assembleBasics cs = .ok ys ∧ zs = xs ++ ys := by
  induction bs generalizing zs with
  | nil => simp [assembleBasics]
  | cons b bs ih =>
    simp only [List.cons_append, assembleBasics_cons_iff, ih]
    constructor
    · rintro ⟨ws, -, hb, ⟨xs, ys, hxs, hys, rfl⟩, rfl⟩
      exact ⟨_, ys, ⟨ws, xs, hb, hxs, rfl⟩, hys, (List.append_assoc ..).symm⟩
    · rintro ⟨-, ys, ⟨ws, xs, hb, hxs, rfl⟩, hys, rfl⟩
      exact ⟨ws, _, hb, ⟨xs, ys, hxs, hys, rfl⟩, List.append_assoc ..⟩

theorem assemble_append_iff {as bs : List AsmLine} :
    assemble (as ++ bs) = .ok zs ↔
      ∃ xs ys, assemble as = .ok xs ∧ assemble bs = .ok ys ∧ zs = xs ++ ys := by
  rw [assemble, List.flatMap_append, assembleBasics_append_iff]
  rfl

theorem assemble_basic_ok {b : AsmBasic} {ws : List (Option CmdWord)} (h : b.cycles = .ok ws) :
    assemble [.basic b] = .ok (ws.map Inputs.ofCycle) := by
  have hone : assembleBasics [b] = .ok (ws.map Inputs.ofCycle ++ []) :=
    assembleBasics_cons_iff.2 ⟨ws, [], h, rfl, rfl⟩
  rwa [List.append_nil] at hone

theorem assemble_basic_error {b : AsmBasic} {e : AsmError} (h : b.cycles = .error e) :
    assemble [.basic b] = .error e := by
  change assembleBasics [b] = .error e
  simp [assembleBasics, h]

theorem assembleText_singleton (l : List Char) :
    assembleText [l] =
      match parseLine l with
      | .ok a => assemble a
      | .error e => .error e := by
  rw [assembleText, parseLines, parseLines]
  cases parseLine l <;> simp

/-- A program's text is its first line's and then the rest's. -/
theorem assembleText_cons_iff (l : List Char) (ls : List (List Char)) (zs : List Inputs) :
    assembleText (l :: ls) = .ok zs ↔
      ∃ xs ys, assembleText [l] = .ok xs ∧ assembleText ls = .ok ys ∧ zs = xs ++ ys := by
  rw [assembleText_singleton, assembleText, assembleText, parseLines]
  cases parseLine l with
  | error e => simp
  | ok a =>
    cases parseLines ls with
    | error e => simp
    | ok b => exact assemble_append_iff

end

/-- Settles O59: the words are the encoder's (`means_of_encode`), a spelled line is scanned to its
tokens (`scan_spells`), and a program is assembled line by line (`assembleText_cons_iff`). -/
theorem assemblerFollowsItsSyntax : Obligations.AssemblerFollowsItsSyntax := by
  refine ⟨⟨?_, ?_, ?_, ?_, ?_⟩, fun pos pat => means_setdig, fun pos v => means_setpt,
    fun c0 c1 c2 c3 => ⟨means_setstr c0 c1 c2 c3, means_setstrData c0 c1 c2 c3⟩, fun w => ?word,
    fun n => rfl, fun pos x hpos => ⟨?digPos, ?ptPos⟩, fun pos pat hp hpat => ?pattern,
    fun pos v hp hv => ?value, fun codes hlen => ?count, fun codes hlen hbig => ?code,
    fun n hn => if_neg (Nat.not_lt.2 hn), fun n hn => if_neg (Nat.not_lt.2 hn),
    fun l => parseLine_of_spells_nil, fun l w as ns h has => ?numbers, fun l w codes h => ?string,
    fun b ws => assemble_basic_ok, fun b e => assemble_basic_error, assembleText_singleton, rfl,
    assembleText_cons_iff⟩
  case word =>
    rw [AsmBasic.cycles, if_pos w.isLt, BitVec.ofNat_toNat, BitVec.setWidth_eq]
  case digPos => simp [AsmBasic.cycles, Nat.not_lt.2 hpos]
  case ptPos => simp [AsmBasic.cycles, Nat.not_lt.2 hpos]
  case pattern => simp [AsmBasic.cycles, hp, Nat.not_le.2 hpat]
  case value => simp [AsmBasic.cycles, hp, Nat.not_le.2 hv]
  case count => rw [AsmBasic.cycles, fourCodes_of_length_ne hlen]
  case code => rw [AsmBasic.cycles, fourCodes_of_code_ge hlen hbig]
  case numbers =>
    refine ⟨fun hw hns => ?_, fun hw hns => ?_, fun hw hns => ?_, fun hw hns => ?_, fun hw hns => ?_,
      fun hw hns => ?_, fun hw n hns => ?_, fun hw n hns => ?_, fun hw n hns => ?_, fun hw n hns => ?_,
      fun hw pos pat hns => ?_, fun hw pos v hns => ?_, fun hw v0 v1 v2 v3 hns => ?_⟩
    all_goals
      rw [hns] at has
      exact parseLine_of_numbers h has hw rfl rfl
  case string =>
    exact ⟨fun hw => parseLine_of_spells h hw rfl rfl, fun hw => parseLine_of_spells h hw rfl rfl⟩
  all_goals exact means_of_encode rfl rfl rfl

/-- Settles O60: the expansions are read off the definition, and a `WAIT` presents nothing in each
of its cycles. -/
theorem pseudoInstructionsExpand : Obligations.PseudoInstructionsExpand := by
  refine ⟨fun _ => rfl, fun _ _ _ _ => rfl, rfl, fun _ => rfl, fun n => ?_⟩
  rw [assemble_basic_ok (b := .wait n) rfl, List.map_replicate]
  rfl

end Sys2Proof.Machine
end
